-- ==== Sys2Proof/Word.lean ====
section
/-! DEFINITION. The word types of the engine (00_scope.md R6: CELL_W = 8; CHAR_W, PTR_W, PC_W and STEP_W = 32). -/

namespace Sys2Proof

/-- A tape cell, an input byte or an output byte (10_state.md R21, R27, R28). -/
abbrev Byte := BitVec 8

/-- A program word, or a 32-bit register (00_scope.md R6, 10_state.md R34). -/
abbrev Word := BitVec 32

end Sys2Proof
end

