-- ==== Sys2Proof/Syntax.lean ====
section
/-! DEFINITION. The nine instructions of BF-8 (spec/opcode_table.json; 30_encoding.md R82). -/

namespace Sys2Proof

/-- One constructor per row of the opcode table.  No instruction has an operand field (30_encoding.md R80, R85).
`nop` keeps the character it was decoded from, so that encoding gives the same word back; its meaning never reads it
(log entry 2). -/
inductive Instr where
  /-- INC, `+` (R120) -/
  | inc
  /-- IN, `,` (R144) -/
  | input
  /-- DEC, `-` (R121) -/
  | dec
  /-- OUT, `.` (R142) -/
  | output
  /-- LEFT, `<` (R130) -/
  | left
  /-- RIGHT, `>` (R131) -/
  | right
  /-- JZ, `[` (R150) -/
  | jz
  /-- JNZ, `]` (R152) -/
  | jnz
  /-- NOP, every other character (R107) -/
  | nop (ch : Word)
  deriving DecidableEq, Repr

end Sys2Proof
end

