-- ==== Sys2Proof/WellFormed.lean ====
section
/-! DEFINITION. Which terms of `Instr` stand for an instruction of the machine. -/

namespace Sys2Proof

/-- The codes of the eight command characters, in the opcode table's order (30_encoding.md R82). -/
def commandCodes : List Word :=
  [0x2B#32, 0x2C#32, 0x2D#32, 0x2E#32, 0x3C#32, 0x3E#32, 0x5B#32, 0x5D#32]

/-- A NOP is a word that is none of the eight codes (30_encoding.md R84); the eight commands have nothing to check. -/
def Instr.wellFormed : Instr → Bool
  | .inc => true
  | .input => true
  | .dec => true
  | .output => true
  | .left => true
  | .right => true
  | .jz => true
  | .jnz => true
  | .nop ch => !commandCodes.contains ch

end Sys2Proof
end

