-- ==== Sys2Proof/Decode.lean ====
section
/-! DEFINITION. The decoder and, after it, the encoder (30_encoding.md R82, R83). -/

namespace Sys2Proof

/-- The decoder: an exact comparison of all 32 bits against the eight codes; every other word is a NOP.  It is total
and never faults, so there is no word it rejects (30_encoding.md R83, R84). -/
def decode (w : Word) : Instr :=
  if w = 0x2B#32 then .inc
  else if w = 0x2C#32 then .input
  else if w = 0x2D#32 then .dec
  else if w = 0x2E#32 then .output
  else if w = 0x3C#32 then .left
  else if w = 0x3E#32 then .right
  else if w = 0x5B#32 then .jz
  else if w = 0x5D#32 then .jnz
  else .nop w

/-- The word of an instruction, from the table of 30_encoding.md R82. -/
def encode : Instr → Word
  | .inc => 0x2B#32
  | .input => 0x2C#32
  | .dec => 0x2D#32
  | .output => 0x2E#32
  | .left => 0x3C#32
  | .right => 0x3E#32
  | .jz => 0x5B#32
  | .jnz => 0x5D#32
  | .nop ch => ch

/-- The program word whose low `nbits` bits are `w` and whose other bits are 0: an instruction is one 32-bit word
(30_encoding.md R80), so bit 0 of the table is bit 0 of the word. -/
def tableWord (nbits w : Nat) : Word := BitVec.ofNat 32 (w % 2 ^ nbits)

/-- What the decoder reads from a row's word.  `none` only for a length no instruction has: every instruction is one
word of 32 bits (30_encoding.md R86, log entry 15). -/
def decodeTableWord (nbits w : Nat) : Option Instr :=
  if nbits ≤ 32 then some (decode (tableWord nbits w)) else none

end Sys2Proof
end

