-- ==== Sys2Proof/Config.lean ====
section
/-! DEFINITION. The synthesis parameters (00_scope.md R6) and the free values. -/

namespace Sys2Proof.Config

/-- LIMIT_CHECK_PHASE: where in an iteration the budget is compared (40_dispatch.md R103, R104, D6). -/
inductive Phase where
  | pre
  | post
  deriving DecidableEq, Repr

/-- The synthesis-time constants the spec leaves OPEN (00_scope.md R6).  `outCap = none` is the unbounded buffer that
R6 and R146 allow a model. -/
structure Params where
  tapeCap : Nat
  progCap : Nat
  inCap : Nat
  outCap : Option Nat
  phase : Phase
  deriving DecidableEq, Repr

/-- The legal values of 00_scope.md R6. -/
abbrev Params.legal (p : Params) : Prop :=
  (1 ≤ p.tapeCap ∧ p.tapeCap < 2 ^ 32) ∧ (1 ≤ p.progCap ∧ p.progCap < 2 ^ 32) ∧ p.inCap < 2 ^ 32 ∧
    p.outCap.all (fun c => decide (c < 2 ^ 32)) = true

/-- The parameters of `State.reset`: the largest legal capacities, an unbounded output buffer, and the spec's default
phase.  DESIGN CHOICE (log entry 1): no statement rests on these values, since a state carries its own parameters. -/
def reference : Params :=
  { tapeCap := 2 ^ 32 - 1, progCap := 2 ^ 32 - 1, inCap := 2 ^ 32 - 1, outCap := none, phase := .pre }

/-- The free choice behind PC after an unmatched-bracket error, by the number of the draw (60_exceptions.md R174, D13).
`Machine.drawnPc` brings it into the spec's range [0, PROG_LEN]. -/
opaque freePc : Nat → Word

/-- The free choice whether STEPS counted the failing bracket step, by the number of the draw (R174, D13). -/
opaque freeCounted : Nat → Bool

/-- What a tape cell holds after a reset and before construction, by the number of the draw and the cell's index
(10_state.md R46 "any value: a model draws it", U7; log entry 6). -/
opaque freeCell : Nat → Nat → Byte

/-- What OUT_LEN reads for an output of 2^32 bytes or more, by its length: no bounded buffer reaches that length, and
the spec gives no value there (log entry 13). -/
opaque freeOutLen : Nat → Word

end Sys2Proof.Config
end

