-- ==== Sys2Proof/Machine/State.lean ====
section
/-! DEFINITION. The state of the engine (10_state.md R46), the reasons a step can stop, and the state after reset. -/

namespace Sys2Proof.Machine

/-- STATE, the 3-bit status register, by name (10_state.md R31); `Status.code` in Ops.lean gives the codes. -/
inductive Status where
  | config
  | idle
  | running
  | doneOk
  | errUnmatchedFwd
  | errUnmatchedBwd
  | errStepLimit
  | configRejected
  deriving DecidableEq, Repr

/-- SCAN_DIR of the bracket-jump FSM (44_bracket_jump.md R156). -/
inductive ScanDir where
  | idle
  | fwd
  | bwd
  deriving DecidableEq, Repr

/-- The three run errors (60_exceptions.md R170 to R172). -/
inductive RunError where
  | unmatchedForward
  | unmatchedBackward
  | stepLimitExceeded
  deriving DecidableEq, Repr

/-- One action of the host, or its leave for the block to move (log entry 9).  An access has a width in bits and a byte
offset, both unrestricted: 20_memory.md R64 says what an access of another width or offset does. -/
inductive HostAction where
  /-- the host does nothing here: the block takes one architectural step -/
  | tick
  /-- a write of `value` to the register bank -/
  | write (bits offset : Nat) (value : Word)
  /-- a read of the register bank -/
  | read (bits offset : Nat)
  /-- hardware reset (70_reset_and_hazards.md R190, R199) -/
  | hardReset
  deriving DecidableEq, Repr

/-- Why a step stops. -/
inductive Fault where
  /-- Raised by OUT on a full output buffer: the spec's `stuck`, a hold with no next step (43_io.md R146).  Safe. -/
  | outputHold
  /-- Raised by the fetch and by the bracket scans, for a program word the host has not written since reset (10_state.md
  R25, U6: "A model treats a fetch or scan read of it as a fault").  Safe. -/
  | unwrittenWord (index : Nat)
  /-- Raised by an instruction that uses the current cell with PTR not below N: MemRead and MemWrite are "Defined only
  for a < N" (00_scope.md R8).  No reachable state raises it.  Safe. -/
  | cellOutsideTape
  /-- Raised by an instruction that uses the current cell before construction: no N is latched (10_state.md R20), and "No
  instruction can read them before construction" (R21).  No step raises it, since no run starts there.  Safe. -/
  | tapeUnspecified
  deriving DecidableEq, Repr

/-- Why an instruction is turned away. -/
inductive Refusal where
  /-- Raised by an arm of `exec` whose instruction has no meaning yet.  Safe. -/
  | notModelled (mnemonic : String)
  deriving DecidableEq, Repr

/-- Everything the spec gives the machine (10_state.md R46), and after it the model's own fields. -/
structure State where
  /-- TAPE: (index, cell) pairs, rising, none equal to what an unlisted cell reads as (R20, R21) -/
  tape : List Host.Cell
  /-- PTR (R22) -/
  ptr : Word
  /-- PC (R24) -/
  pc : Word
  /-- PROG: (index, word) pairs, rising; a word not listed has not been written since reset (R25) -/
  prog : List (Nat × Word)
  /-- PROG_LEN (R42) -/
  progLen : Word
  /-- INQ, front first (R27) -/
  inq : List Byte
  /-- OUTBUF, oldest first (R28) -/
  outbuf : List Byte
  /-- STEPS (R29) -/
  steps : Word
  /-- STATE (R31) -/
  status : Status
  /-- CFG_TAPE_LEN; N once construction has latched it (R36) -/
  cfgTapeLen : Word
  /-- CFG_FLAGS[1:0]: bit 0 BUDGET_EN, bit 1 STEPS_RESET_ON_RUN (R37) -/
  cfgFlags : BitVec 2
  /-- CFG_MAX_STEPS (R38) -/
  cfgMaxSteps : Word
  /-- IN_OVF (R39) -/
  inOvf : Bool
  /-- PROG_ADDR (R41) -/
  progAddr : Word
  /-- OUT_ADDR (R43) -/
  outAddr : Word
  /-- SCAN_DIR (R156) -/
  scanDir : ScanDir
  /-- SCAN_POS (R156) -/
  scanPos : Word
  /-- DEPTH (R156) -/
  depth : Word
  /-- the model's own: the synthesis parameters, written by nothing (R6, log entry 1) -/
  params : Config.Params
  /-- the model's own: how many free values have been drawn (log entry 3) -/
  draws : Nat
  /-- the model's own: the draw of the unspecified tape after a reset; none once construction has cleared the tape (R21,
  R46, log entry 6) -/
  tapeDraw : Option Nat
  /-- the model's own: the host's pending actions, next first (log entry 9) -/
  bus : List HostAction
  /-- the model's own: what the host's last read returned (log entry 9) -/
  readData : Word
  deriving DecidableEq, Repr

/-- The machine right after hardware reset (10_state.md R46, 70_reset_and_hazards.md R190).  SCAN_POS and DEPTH are the
model's choice (log entry 4); so are the model's own fields (log entries 1, 3, 6 and 9).
The tape is draw 0: every cell reads as a free value. -/
def State.reset : State :=
  { tape := [], ptr := 0, pc := 0, prog := [], progLen := 0, inq := [], outbuf := [], steps := 0, status := .config,
    cfgTapeLen := 0, cfgFlags := 0, cfgMaxSteps := 0, inOvf := false, progAddr := 0, outAddr := 0,
    scanDir := .idle, scanPos := 0, depth := 0,
    params := Config.reference, draws := 1, tapeDraw := some 0, bus := [], readData := 0 }

end Sys2Proof.Machine
end

