-- ==== Sys2Proof/Machine/Ops.lean ====
section
/-! DEFINITION. The named operations over memory, queues and registers: the primitives of 00_scope.md R8, the pc advance,
and taking an error. -/

namespace Sys2Proof.Machine

/-- The outcome of an instruction or a step of this machine. -/
abbrev Out := Host.Outcome State Fault Refusal

/-! ## Sparse memory

A memory is a list of (address, value) pairs.  `d` says what an unlisted address reads as: `some 0` at every address of a
constructed tape (10_state.md R21), a free value at each address of one that is not (R46), and `none` for program memory,
whose words have no value before the host writes them (R25). -/

/-- Read one address. -/
def Memory.read {α : Type} (d : Nat → Option α) : List (Nat × α) → Nat → Option α
  | [], a => d a
  | (b, v) :: m, a => if b = a then some v else Memory.read d m a

/-- List an address, in its place. -/
def Memory.put {α : Type} : List (Nat × α) → Nat → α → List (Nat × α)
  | [], a, v => [(a, v)]
  | (b, w) :: m, a, v =>
    if a < b then (a, v) :: (b, w) :: m
    else if a = b then (a, v) :: m
    else (b, w) :: Memory.put m a v

/-- Unlist an address. -/
def Memory.drop {α : Type} (m : List (Nat × α)) (a : Nat) : List (Nat × α) := m.filter fun c => c.1 != a

/-- Write one address: the value an unlisted address reads as is never listed. -/
def Memory.write {α : Type} [DecidableEq α] (d : Nat → Option α) (m : List (Nat × α)) (a : Nat) (v : α) : List (Nat × α) :=
  if d a = some v then Memory.drop m a else Memory.put m a v

/-- The canonical form: addresses strictly rising, and no entry equal to what an unlisted address reads as. -/
abbrev Memory.wf {α : Type} [DecidableEq α] (d : Nat → Option α) (m : List (Nat × α)) : Prop :=
  m.Pairwise (fun x y => x.1 < y.1) ∧ ∀ c ∈ m, d c.1 ≠ some c.2

/-- What an unlisted tape cell reads as: 0x00 since construction (10_state.md R21), and before it a free value, drawn at the
reset (R46, U7, log entry 6). -/
def State.tapeDefault (s : State) (a : Nat) : Option Byte :=
  match s.tapeDraw with
  | none => some 0x00#8
  | some k => some (Config.freeCell k a)

/-- What an unlisted program word reads as: it has no value (10_state.md R25, U6). -/
def progDefault (_ : Nat) : Option Word := none

/-- The cell at index `a` of the tape's list; MemRead without its bound (R8). -/
def State.cellAt (s : State) (a : Nat) : Byte := (Memory.read s.tapeDefault s.tape a).getD 0

/-- ProgRead (R8): `none` for a word the host has not written since reset. -/
def State.progAt (s : State) (i : Nat) : Option Word := Memory.read progDefault s.prog i

/-- MemWrite (R8) without its bound. -/
def State.writeCell (s : State) (a : Nat) (v : Byte) : State :=
  { s with tape := Memory.write s.tapeDefault s.tape a v }

/-- A program word is written by the host alone (10_state.md R41). -/
def State.writeProg (s : State) (i : Nat) (w : Word) : State := { s with prog := Memory.write progDefault s.prog i w }

/-! ## Queues -/

/-- The byte InPop returns: the front of INQ, or 0x00 when it is empty (00_scope.md R8, 43_io.md R144). -/
def State.inFront (s : State) : Byte := s.inq.headD 0x00#8

/-- What InPop does to INQ (R8): an empty queue stays empty. -/
def State.popInput (s : State) : State := { s with inq := s.inq.tail }

/-- OutAppend (R8). -/
def State.appendOutput (s : State) (v : Byte) : State := { s with outbuf := s.outbuf ++ [v] }

/-- |OUTBUF| = OUT_CAP; never so for an unbounded buffer (43_io.md R146). -/
def State.outputFull (s : State) : Bool := s.params.outCap == some s.outbuf.length

/-! ## Configuration and status -/

/-- CFG_FLAGS.BUDGET_EN (10_state.md R37). -/
def State.budgetEn (s : State) : Bool := s.cfgFlags.getLsbD 0

/-- CFG_FLAGS.STEPS_RESET_ON_RUN (R37). -/
def State.stepsResetOnRun (s : State) : Bool := s.cfgFlags.getLsbD 1

/-- The status codes (10_state.md R31). -/
def Status.code : Status → BitVec 3
  | .config => 0
  | .idle => 1
  | .running => 2
  | .doneOk => 3
  | .errUnmatchedFwd => 4
  | .errUnmatchedBwd => 5
  | .errStepLimit => 6
  | .configRejected => 7

/-- The engine has been constructed: every status but CONFIG and CONFIG_REJECTED (R31). -/
def Status.constructed : Status → Bool
  | .config => false
  | .configRejected => false
  | .idle => true
  | .running => true
  | .doneOk => true
  | .errUnmatchedFwd => true
  | .errUnmatchedBwd => true
  | .errStepLimit => true

/-- The budget comparison of the step-limit enforcer: equality, not excess (40_dispatch.md R103, 90_conflicts.md C6). -/
def State.limitReached (s : State) : Bool := s.budgetEn && s.steps == s.cfgMaxSteps

/-! ## The pc advance -/

/-- PC and STEPS after an instruction that did not raise (40_dispatch.md R105, R106). -/
def State.advance (s : State) : State := { s with pc := s.pc + 1, steps := s.steps + 1 }

/-- A run that ends because PC has reached the end of the program (40_dispatch.md R101). -/
def State.finish (s : State) : State := { s with status := .doneOk }

/-! ## Taking an error

There is no handler, no vector and no saved context, and nothing returns from an error (60_exceptions.md R174, R177): the
host's START begins the next run (`State.startRun` in HostPort.lean). -/

/-- The STATE code an error ends the run with (60_exceptions.md R170 to R172). -/
def RunError.status : RunError → Status
  | .unmatchedForward => .errUnmatchedFwd
  | .unmatchedBackward => .errUnmatchedBwd
  | .stepLimitExceeded => .errStepLimit

/-- An element of [0, PROG_LEN], chosen freely (60_exceptions.md R174). -/
def State.drawnPc (s : State) : Word :=
  BitVec.ofNat 32 ((Config.freePc s.draws).toNat % (s.progLen.toNat + 1))

/-- STEPS or STEPS + 1 modulo 2^32, chosen freely (R174). -/
def State.drawnSteps (s : State) : Word := if Config.freeCounted s.draws then s.steps + 1 else s.steps

/-- `raise E` (60_exceptions.md R174): the code goes to STATE and the output is discarded.  A bracket error also leaves
PC and STEPS at free values (D13). -/
def State.raise (e : RunError) (s : State) : State :=
  match e with
  | .stepLimitExceeded => { s with status := RunError.status e, outbuf := [] }
  | .unmatchedForward | .unmatchedBackward =>
    { s with status := RunError.status e, outbuf := [], pc := s.drawnPc, steps := s.drawnSteps, draws := s.draws + 1 }

end Sys2Proof.Machine
end

