-- ==== Sys2Proof/Machine/Operands.lean ====
section
/-! DEFINITION. The operand forms (30_encoding.md R85): the current cell and the pointer.  There are no others: no
displacement, no index, no immediate (20_memory.md R61). -/

namespace Sys2Proof.Machine

/-- The address of the only addressing mode, the current cell (20_memory.md R61). -/
def State.cellAddress (s : State) : Nat := s.ptr.toNat

/-- The current cell's value, MemRead(PTR, 1). -/
def State.cell (s : State) : Byte := s.cellAt s.cellAddress

/-- MemWrite(PTR, 1, v). -/
def State.setCell (s : State) (v : Byte) : State := s.writeCell s.cellAddress v

/-- Use the current cell: `k` gets its value.  Before construction no N is latched and no instruction reads the tape
(10_state.md R20, R21), and no cell exists at or above N (R20, 00_scope.md R8). -/
def withCell (s : State) (k : Byte → Out) : Out :=
  if s.status.constructed = false then .fault .tapeUnspecified
  else if s.cfgTapeLen ≤ s.ptr then .fault .cellOutsideTape
  else k s.cell

/-- Increment of the cell arithmetic unit, (v + 1) mod 256 (41_cell_arithmetic.md R120, R122). -/
def cellInc (v : Byte) : Byte := v + 1

/-- Decrement of the cell arithmetic unit, (v + 255) mod 256 (R121, R122). -/
def cellDec (v : Byte) : Byte := v - 1

/-- One move left on a ring of `n` cells, in the compare form, so that no intermediate wraps at 2^32 (42_pointer.md R130,
R133). -/
def ptrLeft (n p : Word) : Word := if p = 0 then n - 1 else p - 1

/-- One move right on a ring of `n` cells (42_pointer.md R131). -/
def ptrRight (n p : Word) : Word := if p = n - 1 then 0 else p + 1

end Sys2Proof.Machine
end

