-- ==== Sys2Proof/Machine/Flags.lean ====
section
/-! DEFINITION. The block has no flags register and no condition codes (10_state.md R32).  The one predicate is the zero
condition, computed when a bracket executes and stored nowhere. -/

namespace Sys2Proof.Machine

/-- Z of a cell value (10_state.md R32). -/
def zeroCond (v : Byte) : Bool := v == 0x00#8

end Sys2Proof.Machine
end

