-- ==== Sys2Proof/Machine/Bracket.lean ====
section
/-! DEFINITION. The bracket jumps: JZ and JNZ, with their scans as the pseudocode of 44_bracket_jump.md R150 and R152
gives them.  `pos` and `depth` of a scan are the FSM's SCAN_POS and DEPTH when it ends (R156). -/

namespace Sys2Proof.Machine

/-- How a scan ends. -/
inductive ScanEnd where
  /-- depth reached 0 at the scan's position -/
  | found
  /-- the scan ran off the program (R151, R153) -/
  | unmatched
  /-- the next word has not been written since reset (U6) -/
  | unwritten (index : Nat)
  deriving DecidableEq, Repr

/-- A finished scan: its end, the index of the last word read, and the depth there. -/
structure Scan where
  ending : ScanEnd
  pos : Nat
  depth : Nat
  deriving DecidableEq, Repr

/-- The depth after one word of a forward scan: `[` deepens and `]` rises (R150). -/
def depthForward (w : Word) (d : Nat) : Nat :=
  match decode w with
  | .jz => d + 1
  | .jnz => d - 1
  | .inc | .input | .dec | .output | .left | .right | .nop _ => d

/-- The depth after one word of a backward scan: `]` deepens and `[` rises (R152). -/
def depthBackward (w : Word) (d : Nat) : Nat :=
  match decode w with
  | .jnz => d + 1
  | .jz => d - 1
  | .inc | .input | .dec | .output | .left | .right | .nop _ => d

/-- The forward scan from position `q` at depth `d`, with `left` words between `q` and the end of the program (R150,
R151). -/
def scanForward (prog : List (Nat × Word)) : (left q d : Nat) → Scan
  | 0, q, d => ⟨.unmatched, q, d⟩
  | left + 1, q, d =>
    match Memory.read progDefault prog (q + 1) with
    | none => ⟨.unwritten (q + 1), q, d⟩
    | some w =>
      if depthForward w d = 0 then ⟨.found, q + 1, 0⟩ else scanForward prog left (q + 1) (depthForward w d)

/-- The backward scan from position `q` at depth `d` (R152, R153). -/
def scanBackward (prog : List (Nat × Word)) : (q d : Nat) → Scan
  | 0, d => ⟨.unmatched, 0, d⟩
  | q + 1, d =>
    match Memory.read progDefault prog q with
    | none => ⟨.unwritten q, q + 1, d⟩
    | some w => if depthBackward w d = 0 then ⟨.found, q, 0⟩ else scanBackward prog q (depthBackward w d)

/-- What a finished scan leaves in the FSM's registers (R156). -/
def State.setScan (s : State) (r : Scan) : State :=
  { s with scanDir := .idle, scanPos := BitVec.ofNat 32 r.pos, depth := BitVec.ofNat 32 r.depth }

/-- The end of a bracket instruction that scanned: PC goes onto the match and the pc advance past it, or `e` is raised
(R150, R152, 40_dispatch.md R105). -/
def finishScan (e : RunError) (r : Scan) (s : State) : Out :=
  match r.ending with
  | .found => .next { s.setScan r with pc := BitVec.ofNat 32 r.pos }.advance
  | .unmatched => .next ((s.setScan r).raise e)
  | .unwritten i => .fault (.unwrittenWord i)

/-- The forward scan of the `[` at PC: it starts at depth 1 and reads the indices PC + 1 to PROG_LEN - 1 (R150). -/
def State.forwardScan (s : State) : Scan := scanForward s.prog (s.progLen.toNat - (s.pc.toNat + 1)) s.pc.toNat 1

/-- The backward scan of the `]` at PC: it starts at depth 1 and reads the indices PC - 1 down to 0 (R152). -/
def State.backwardScan (s : State) : Scan := scanBackward s.prog s.pc.toNat 1

/-- JZ, `[` (R150). -/
def execJz (s : State) : Out :=
  withCell s fun v => if zeroCond v then finishScan .unmatchedForward s.forwardScan s else .next s.advance

/-- JNZ, `]` (R152). -/
def execJnz (s : State) : Out :=
  withCell s fun v => if zeroCond v then .next s.advance else finishScan .unmatchedBackward s.backwardScan s

end Sys2Proof.Machine
end

