-- ==== Sys2Proof/Machine/CellArith.lean ====
section
/-! DEFINITION. The cell arithmetic unit: INC and DEC (41_cell_arithmetic.md). -/

namespace Sys2Proof.Machine

/-- INC, `+` (R120). -/
def execInc (s : State) : Out := withCell s fun v => .next (s.setCell (cellInc v)).advance

/-- DEC, `-` (R121). -/
def execDec (s : State) : Out := withCell s fun v => .next (s.setCell (cellDec v)).advance

end Sys2Proof.Machine
end

