-- ==== Sys2Proof/Machine/Io.lean ====
section
/-! DEFINITION. The I/O multiplexer: OUT and IN (43_io.md). -/

namespace Sys2Proof.Machine

/-- OUT, `.` (R142): append the current cell; stuck when the buffer is full (R146). -/
def execOutput (s : State) : Out :=
  withCell s fun v => if s.outputFull then .fault .outputHold else .next (s.appendOutput v).advance

/-- IN, `,` (R144): MemWrite(PTR, 1, InPop()).  The cell's old value is not used (R145). -/
def execInput (s : State) : Out := withCell s fun _ => .next (s.popInput.setCell s.inFront).advance

end Sys2Proof.Machine
end

