-- ==== Sys2Proof/Machine/Nop.lean ====
section
/-! DEFINITION. NOP (40_dispatch.md R107). -/

namespace Sys2Proof.Machine

/-- NOP, every other character: no effect but the pc advance and the step count (R107). -/
def execNop (s : State) : Out := .next s.advance

end Sys2Proof.Machine
end

