-- ==== Sys2Proof/Machine/Pointer.lean ====
section
/-! DEFINITION. The circular pointer: LEFT and RIGHT (42_pointer.md). -/

namespace Sys2Proof.Machine

/-- LEFT, `<` (R130): it never raises. -/
def execLeft (s : State) : Out := .next { s with ptr := ptrLeft s.cfgTapeLen s.ptr }.advance

/-- RIGHT, `>` (R131): it never raises. -/
def execRight (s : State) : Out := .next { s with ptr := ptrRight s.cfgTapeLen s.ptr }.advance

end Sys2Proof.Machine
end

