-- ==== Sys2Proof/Machine/HostPort.lean ====
section
/-! DEFINITION. The host interface: reset, construction, starting a run, and the register bank (10_state.md R34 to R45,
70_reset_and_hazards.md R190, R191). -/

namespace Sys2Proof.Machine

/-- Hardware reset and SOFT_RESET: every piece of the block's state to its reset value (70_reset_and_hazards.md R190).
The tape
becomes unspecified, which is a fresh draw (10_state.md R46, log entry 6).  The model's own other fields are no state of
the block and stay (log entry 12). -/
def State.hardReset (s : State) : State :=
  { State.reset with params := s.params, draws := s.draws + 1, tapeDraw := some s.draws, bus := s.bus, readData := s.readData }

/-- Construction, CFG_COMMIT.COMMIT = 1 in CONFIG (70_reset_and_hazards.md R191). -/
def State.construct (s : State) : State :=
  if s.cfgTapeLen = 0 ∨ s.params.tapeCap < s.cfgTapeLen.toNat ∨ s.inOvf = true then { s with status := .configRejected }
  else { s with tape := [], tapeDraw := none, ptr := 0, pc := 0, steps := 0, outbuf := [], status := .idle }

/-- The states in which START can begin a run (10_state.md R35). -/
def Status.startable : Status → Bool
  | .idle => true
  | .doneOk => true
  | .errUnmatchedFwd => true
  | .errUnmatchedBwd => true
  | .errStepLimit => true
  | .config => false
  | .running => false
  | .configRejected => false

/-- Starting a run (40_dispatch.md R100). -/
def State.startRun (s : State) : State :=
  { s with outbuf := [], outAddr := 0, steps := if s.stepsResetOnRun then 0 else s.steps, status := .running }

/-- A write of CTRL (10_state.md R35): SOFT_RESET wins over START, and both have no effect while RUNNING. -/
def State.writeCtrl (s : State) (v : Word) : State :=
  if v.getLsbD 1 then (if s.status = .running then s else s.hardReset)
  else if v.getLsbD 0 && s.status.startable && decide (s.progLen.toNat ≤ s.params.progCap) then s.startRun
  else s

/-- A write of IN_PUSH in CONFIG (10_state.md R40). -/
def State.pushInput (s : State) (v : Word) : State :=
  if s.inq.length < s.params.inCap then { s with inq := s.inq ++ [v.setWidth 8] } else { s with inOvf := true }

/-- A write of PROG_DATA (10_state.md R41): the word is stored unchanged, and PROG_ADDR wraps at 2^32. -/
def State.writeProgData (s : State) (v : Word) : State :=
  { (if s.progAddr.toNat < s.params.progCap then s.writeProg s.progAddr.toNat v else s) with progAddr := s.progAddr + 1 }

/-- The thirteen registers (10_state.md R34). -/
inductive HostReg where
  | ctrl
  | status
  | cfgTapeLen
  | cfgFlags
  | cfgMaxSteps
  | inPush
  | cfgCommit
  | progLen
  | progAddr
  | progData
  | outLen
  | outAddr
  | outData
  deriving DecidableEq, Repr

/-- The register of an access: 32 bits wide, at a listed byte offset (10_state.md R34, 20_memory.md R64). -/
def HostReg.select (bits offset : Nat) : Option HostReg :=
  if bits = 32 then
    match offset with
    | 0x00 => some .ctrl
    | 0x04 => some .status
    | 0x08 => some .cfgTapeLen
    | 0x0C => some .cfgFlags
    | 0x10 => some .cfgMaxSteps
    | 0x14 => some .inPush
    | 0x18 => some .cfgCommit
    | 0x1C => some .progLen
    | 0x20 => some .progAddr
    | 0x24 => some .progData
    | 0x28 => some .outLen
    | 0x2C => some .outAddr
    | 0x30 => some .outData
    | _ => none
  else none

/-- The access column of the register table: in which states a write may have an effect (10_state.md R34, R41 to R45). -/
def HostReg.writable (r : HostReg) (st : Status) : Bool :=
  match r with
  | .ctrl => true
  | .cfgTapeLen | .cfgFlags | .cfgMaxSteps | .inPush | .cfgCommit => st == .config
  | .progLen | .progAddr | .progData => st != .running && st != .configRejected
  | .outAddr => st != .configRejected
  | .status | .outLen | .outData => false

/-- The effect of a permitted write. -/
def State.writeReg (s : State) (r : HostReg) (v : Word) : State :=
  match r with
  | .ctrl => s.writeCtrl v
  | .cfgTapeLen => { s with cfgTapeLen := v }
  | .cfgFlags => { s with cfgFlags := v.setWidth 2 }
  | .cfgMaxSteps => { s with cfgMaxSteps := v }
  | .inPush => s.pushInput v
  | .cfgCommit => if v.getLsbD 0 then s.construct else s
  | .progLen => { s with progLen := v }
  | .progAddr => { s with progAddr := v }
  | .progData => s.writeProgData v
  | .outAddr => { s with outAddr := v }
  | .status | .outLen | .outData => s

/-- One host write: no effect at an unlisted offset, at another width, or where the access column forbids it (10_state.md
R34, R45, 20_memory.md R64, 70_reset_and_hazards.md R197). -/
def State.hostWrite (s : State) (bits offset : Nat) (v : Word) : State :=
  match HostReg.select bits offset with
  | none => s
  | some r => if r.writable s.status then s.writeReg r v else s

/-- OUT_LEN (10_state.md R43).  A length no 32-bit register holds reads as a free value (log entry 13). -/
def State.outLen (s : State) : Word :=
  if s.status = .doneOk then
    (if s.outbuf.length < 2 ^ 32 then BitVec.ofNat 32 s.outbuf.length else Config.freeOutLen s.outbuf.length)
  else 0

/-- OUT_DATA (10_state.md R44). -/
def State.outData (s : State) : Word :=
  if s.status = .doneOk then ((s.outbuf[s.outAddr.toNat]?).getD 0).setWidth 32 else 0

/-- The value of a register; a write-only register reads 0 (10_state.md R34). -/
def State.readReg (s : State) (r : HostReg) : Word :=
  match r with
  | .ctrl | .inPush | .cfgCommit | .progData => 0
  | .status => s.status.code.setWidth 32
  | .cfgTapeLen => s.cfgTapeLen
  | .cfgFlags => s.cfgFlags.setWidth 32
  | .cfgMaxSteps => s.cfgMaxSteps
  | .progLen => s.progLen
  | .progAddr => s.progAddr
  | .outLen => s.outLen
  | .outAddr => s.outAddr
  | .outData => s.outData

/-- One host read: 0 at an unlisted offset or another width (10_state.md R34, 20_memory.md R64). -/
def State.hostRead (s : State) (bits offset : Nat) : Word :=
  match HostReg.select bits offset with
  | none => 0
  | some r => s.readReg r

end Sys2Proof.Machine
end

