-- ==== Sys2Proof/Machine/Loop.lean ====
section
/-! DEFINITION. The dispatch loop with the step-limit enforcer (40_dispatch.md R101 to R104), and the turn taken between the
block and the host. -/

namespace Sys2Proof.Machine

/-- The PRE check of the step-limit enforcer (R103). -/
def State.preLimit (s : State) : Bool := decide (s.params.phase = .pre) && s.limitReached

/-- The POST check (R104), on the state after an instruction.  An instruction that raised has left RUNNING, and then the
check is skipped (R102, log entry 14). -/
def postCheck (o : Out) : Out :=
  match o with
  | .next t =>
    if t.status = .running ∧ t.params.phase = .post ∧ t.limitReached = true then .next (t.raise .stepLimitExceeded)
    else .next t
  | .fault f => .fault f
  | .refused r => .refused r

/-- Fetch, decode, execute and the POST check (R102). -/
def iterate (s : State) : Out :=
  match s.progAt s.pc.toNat with
  | none => .fault (.unwrittenWord s.pc.toNat)
  | some w => postCheck (exec (decode w) s)

/-- One architectural step of the block (R102).  Between runs it keeps its state and waits for the host (60_exceptions.md
R184, log entry 10). -/
def blockStep (s : State) : Out :=
  if s.status = .running then
    if s.progLen ≤ s.pc then .next s.finish
    else if s.preLimit then .next (s.raise .stepLimitExceeded)
    else iterate s
  else .next s

/-- One host action, on the state from which it has been taken. -/
def hostAct (a : HostAction) (s : State) : Out :=
  match a with
  | .tick => blockStep s
  | .write bits offset v => .next (s.hostWrite bits offset v)
  | .read bits offset => .next { s with readData := s.hostRead bits offset }
  | .hardReset => .next s.hardReset

/-- One step of the whole machine: the host's next action, or, when it has none, a step of the block (log entry 9). -/
def machineStep (s : State) : Out :=
  match s.bus with
  | [] => blockStep s
  | a :: rest => hostAct a { s with bus := rest }

/-- The index `placeWord` uses: PC, or 0 for the one value of PC that no program length exceeds. -/
def fetchIndex (s : State) : Word := if s.pc + 1 = 0 then 0 else s.pc

/-- The pointer `placeWord` uses: PTR, or 0 for the one value of PTR that no tape length exceeds. -/
def placePtr (s : State) : Word := if s.ptr + 1 = 0 then 0 else s.ptr

/-- The state in which the next step fetches and runs the word `w`: a constructed engine (its tape cleared) in a run, the word
at PC, a program and a tape that reach PC and PTR, no host action before it, and no budget that is used up (log entry 11). -/
def placeWord (s : State) (w : Word) : State :=
  { s with
    pc := fetchIndex s
    ptr := placePtr s
    prog := Memory.write progDefault s.prog (fetchIndex s).toNat w
    progLen := if fetchIndex s < s.progLen then s.progLen else fetchIndex s + 1
    cfgTapeLen := if placePtr s < s.cfgTapeLen then s.cfgTapeLen else placePtr s + 1
    status := .running
    tapeDraw := none
    cfgFlags := if s.limitReached then s.cfgFlags &&& 0b10#2 else s.cfgFlags
    bus := [] }

end Sys2Proof.Machine
end

