-- ==== Sys2Proof/Machine/BracketFsm.lean ====
section
/-! DEFINITION. The bracket-jump FSM of 44_bracket_jump.md R156, clock by clock.  `exec` does a scan in one step, as
00_scope.md R5 says; this is the hardware form of the same scan, and a statement says that the two agree. -/

namespace Sys2Proof.Machine

/-- "on JZ with Z = 1" and "on JNZ with Z = 0" (R156). -/
def fsmStart (dir : ScanDir) (s : State) : State := { s with scanDir := dir, scanPos := s.pc, depth := 1 }

/-- The register updates of a clock that read a word at `p`: `up` is 1 if the word deepens the scan, `down` is 1 if it
rises (R156). -/
def fsmMove (p up down : Word) (s : State) : State :=
  if s.depth + up - down = 0 then { s with scanPos := p, depth := 0, pc := p, scanDir := .idle }
  else { s with scanPos := p, depth := s.depth + up - down }

/-- 1 if the word decodes to `i`, else 0: the two bracket tests of R156. -/
def fsmCount (i : Instr) (w : Word) : Word := if decode w = i then 1 else 0

/-- One clock of the FSM (R156).  An IDLE FSM does nothing. -/
def fsmClock (s : State) : Out :=
  match s.scanDir with
  | .idle => .next s
  | .fwd =>
    if s.progLen.toNat ≤ s.scanPos.toNat + 1 then .next ({ s with scanDir := .idle }.raise .unmatchedForward)
    else match s.progAt (s.scanPos.toNat + 1) with
      | none => .fault (.unwrittenWord (s.scanPos.toNat + 1))
      | some w => .next (fsmMove (s.scanPos + 1) (fsmCount .jz w) (fsmCount .jnz w) s)
  | .bwd =>
    if s.scanPos = 0 then .next ({ s with scanDir := .idle }.raise .unmatchedBackward)
    else match s.progAt (s.scanPos.toNat - 1) with
      | none => .fault (.unwrittenWord (s.scanPos.toNat - 1))
      | some w => .next (fsmMove (s.scanPos - 1) (fsmCount .jnz w) (fsmCount .jz w) s)

/-- At most `n` clocks, stopping as soon as the FSM is IDLE. -/
def fsmRun : Nat → State → Out
  | 0, s => .next s
  | n + 1, s =>
    if s.scanDir = .idle then .next s
    else match fsmClock s with
      | .next t => fsmRun n t
      | .fault f => .fault f
      | .refused r => .refused r

/-- The pc advance after the FSM is back in IDLE, skipped if it raised (40_dispatch.md R102, R105). -/
def fsmFinish (o : Out) : Out :=
  match o with
  | .next t => if t.status = .running then .next t.advance else .next t
  | .fault f => .fault f
  | .refused r => .refused r

/-- JZ by the FSM, given `n` clocks. -/
def fsmJz (n : Nat) (s : State) : Out :=
  withCell s fun v => if zeroCond v then fsmFinish (fsmRun n (fsmStart .fwd s)) else .next s.advance

/-- JNZ by the FSM, given `n` clocks. -/
def fsmJnz (n : Nat) (s : State) : Out :=
  withCell s fun v => if zeroCond v then .next s.advance else fsmFinish (fsmRun n (fsmStart .bwd s))

end Sys2Proof.Machine
end

