-- ==== Sys2Proof/Machine/JumpTable.lean ====
section
/-! DEFINITION. The optional jump table of 44_bracket_jump.md R158, built by the usual stack-based pairing.  No step uses
it: it is an invisible internal optimisation, and a statement says that it gives the matches of the scans. -/

namespace Sys2Proof.Machine

/-- The instruction at an index of the program, if the host has written it. -/
def State.instrAt (s : State) (i : Nat) : Option Instr := (s.progAt i).map decode

/-- The pairing while the program is read from index 0: the indices of the `[` still open, innermost first, and the pairs
found so far. -/
structure Pairing where
  openAt : List Nat
  pairs : List (Nat × Nat)
  deriving DecidableEq, Repr

/-- Read the word at index `j`: a `[` is pushed, a `]` closes the innermost open `[`, or stays unmatched when there is
none (laziness: nothing is raised, R155, R158). -/
def Pairing.next (p : Pairing) (j : Nat) (k : Option Instr) : Pairing :=
  if k = some .jz then ⟨j :: p.openAt, p.pairs⟩
  else if k = some .jnz then
    match p.openAt with
    | [] => p
    | i :: rest => ⟨rest, (i, j) :: p.pairs⟩
  else p

/-- The pairing of the first `n` words. -/
def State.pairing (s : State) : Nat → Pairing
  | 0 => ⟨[], []⟩
  | n + 1 => (s.pairing n).next n (s.instrAt n)

/-- The jump table of the current program: the pairs (index of `[`, index of its `]`). -/
def State.jumpTable (s : State) : List (Nat × Nat) := (s.pairing s.progLen.toNat).pairs

end Sys2Proof.Machine
end

