-- ==== Sys2Proof/Safety.lean ====
section
/-! DEFINITION. The terms the statements use: when an instruction may use its cell, what a program must be, the matching
bracket as 44_bracket_jump.md R158 defines it, the invariant of the machine, and the host's boot and load sequences. -/

namespace Sys2Proof.Machine

/-! ## Premises -/

/-- A run is in progress and PTR is on the tape, as in every reachable state of a run (10_state.md R22). -/
abbrev State.cellReady (s : State) : Prop := s.status = .running ∧ s.ptr < s.cfgTapeLen

/-- The host has written every word of the program: the premise 10_state.md R25 puts on a claim about a run. -/
abbrev State.programWritten (s : State) : Prop := ∀ i < s.progLen.toNat, s.progAt i ≠ none

/-- The block runs by itself: STATE is RUNNING and the host has no action. -/
abbrev State.blockRuns (s : State) : Prop := s.status = .running ∧ s.bus = []

/-- The next step is a step of the block in a run, and `u` is the state it moves from: `s` itself when the host has no
action, or `s` with a pending `tick` taken (log entry 9). -/
abbrev State.blockRunsFrom (s u : State) : Prop :=
  s.status = .running ∧ (s.bus = [] ∧ u = s ∨ ∃ rest, s.bus = .tick :: rest ∧ u = { s with bus := rest })

/-! ## The matching bracket (44_bracket_jump.md R158) -/

/-- +1 for a `[`, -1 for a `]`, 0 for everything else. -/
def bracketWeight (k : Option Instr) : Int := if k = some .jz then 1 else if k = some .jnz then -1 else 0

/-- How many more `[` than `]` stand in the `n` words from index `a`. -/
def State.openBrackets (s : State) (a : Nat) : Nat → Int
  | 0 => 0
  | n + 1 => s.openBrackets a n + bracketWeight (s.instrAt (a + n))

/-- As many `[` as `]` stand strictly between the indices `i` and `j`. -/
abbrev State.balanced (s : State) (i j : Nat) : Prop := s.openBrackets (i + 1) (j - (i + 1)) = 0

/-- `j` is the least index after `i` with a `]` and balanced brackets between: the match of a `[` at `i`. -/
abbrev State.forwardMatch (s : State) (i j : Nat) : Prop :=
  i < j ∧ j < s.progLen.toNat ∧ s.instrAt j = some .jnz ∧ s.balanced i j ∧
    ∀ k < j, i < k → s.instrAt k = some .jnz → ¬ s.balanced i k

/-- `i` is the greatest index before `j` with a `[` and balanced brackets between: the match of a `]` at `j`. -/
abbrev State.backwardMatch (s : State) (j i : Nat) : Prop :=
  i < j ∧ s.instrAt i = some .jz ∧ s.balanced i j ∧
    ∀ k < j, i < k → s.instrAt k = some .jz → ¬ s.balanced k j

/-! ## The invariant -/

/-- What every step keeps.  Each field names the rule it comes from. -/
structure Invariant (s : State) : Prop where
  /-- the parameters are legal (00_scope.md R6) -/
  params : s.params.legal
  /-- the tape's list is canonical -/
  tape : Memory.wf s.tapeDefault s.tape
  /-- the tape is a draw from a reset to construction, and never after it (R46) -/
  drawn : s.tapeDraw = none ↔ s.status.constructed = true
  /-- no cell at or above N is listed (10_state.md R20) -/
  tapeInside : ∀ c ∈ s.tape, c.1 < s.cfgTapeLen.toNat
  /-- the program's list is canonical -/
  prog : Memory.wf progDefault s.prog
  /-- no word at or above PROG_CAP is listed (R25) -/
  progInside : ∀ c ∈ s.prog, c.1 < s.params.progCap
  /-- a constructed engine has 1 ≤ N ≤ TAPE_CAP (R36) and PTR < N (R22), and has lost no input byte (R39) -/
  engine : s.status.constructed = true → 0 < s.cfgTapeLen ∧ s.cfgTapeLen.toNat ≤ s.params.tapeCap ∧
    s.ptr < s.cfgTapeLen ∧ s.inOvf = false
  /-- before construction the engine's registers have their reset values (R46) -/
  fresh : s.status.constructed = false → s.tape = [] ∧ s.ptr = 0 ∧ s.pc = 0 ∧ s.steps = 0
  /-- PC is at most PROG_CAP (R24, R46) -/
  pc : s.pc.toNat ≤ s.params.progCap
  /-- a run has a program that fits program memory (R35, R42) -/
  length : s.status = .running → s.progLen.toNat ≤ s.params.progCap
  /-- INQ holds at most IN_CAP bytes (R27) -/
  inq : s.inq.length ≤ s.params.inCap
  /-- OUTBUF holds at most OUT_CAP bytes (R28) -/
  outbuf : ∀ c ∈ s.params.outCap, s.outbuf.length ≤ c
  /-- there is output only in a run and after a success (R28, 60_exceptions.md R174) -/
  noOutput : s.status ≠ .running → s.status ≠ .doneOk → s.outbuf = []
  /-- between steps the bracket-jump FSM is IDLE (44_bracket_jump.md R156) -/
  scan : s.scanDir = .idle
  /-- with a budget and PRE, STEPS does not pass MAX_STEPS (10_state.md R30) -/
  budget : s.params.phase = .pre → s.budgetEn = true → s.steps ≤ s.cfgMaxSteps
  /-- with a budget and PRE, each output byte cost a step (43_io.md R146) -/
  output : s.params.phase = .pre → s.budgetEn = true → s.outbuf.length ≤ s.steps.toNat

/-- The bound 43_io.md R146 requires of an implementation: OUT_CAP ≥ MAX_STEPS, or no bound at all. -/
abbrev State.outCapSuffices (s : State) : Prop := ∀ c ∈ s.params.outCap, s.cfgMaxSteps.toNat ≤ c

/-! ## What the host does (70_reset_and_hazards.md R193) -/

/-- Steps 2 to 4: the configuration registers, the input bytes in order, and CFG_COMMIT. -/
def bootActions (tapeLen flags maxSteps : Word) (input : List Byte) : List HostAction :=
  [.write 32 0x08 tapeLen, .write 32 0x0C flags, .write 32 0x10 maxSteps] ++
    (input.map fun b => .write 32 0x14 (b.setWidth 32)) ++ [.write 32 0x18 1]

/-- Step 5: PROG_ADDR = 0, the words of the program in order, and their count (30_encoding.md R87). -/
def loadActions (words : List Word) : List HostAction :=
  .write 32 0x20 0 :: (words.map fun w => .write 32 0x24 w) ++ [.write 32 0x1C (BitVec.ofNat 32 words.length)]

end Sys2Proof.Machine
end

