-- ==== Sys2Proof/Certificates/Slice0/Obligations.lean ====
section
/-! DEFINITION. The statements for the provers.  Each is about the machine, none about a program. -/

open Sys2Proof Sys2Proof.Machine

/-! ## Decoding and encoding -/

/-- 30_encoding.md R83: the decoder compares the whole word with the eight codes, written out here from R82, and every
other word is a NOP. -/
def Obligations.DecoderComparesTheWholeWord : Prop :=
  decode 0x0000002B#32 = .inc ∧ decode 0x0000002C#32 = .input ∧ decode 0x0000002D#32 = .dec ∧
    decode 0x0000002E#32 = .output ∧ decode 0x0000003C#32 = .left ∧ decode 0x0000003E#32 = .right ∧
    decode 0x0000005B#32 = .jz ∧ decode 0x0000005D#32 = .jnz ∧
    ∀ w : Word, w ∉ [0x2B#32, 0x2C#32, 0x2D#32, 0x2E#32, 0x3C#32, 0x3E#32, 0x5B#32, 0x5D#32] → decode w = .nop w

/-- Decoding and encoding are inverse to each other: on every well-formed instruction, and on every word. -/
def Obligations.DecodeAndEncodeAreInverse : Prop :=
  (∀ i : Instr, i.wellFormed = true → decode (encode i) = i) ∧
    ∀ w : Word, (decode w).wellFormed = true ∧ encode (decode w) = w

/-- 30_encoding.md R87 and step 5 of 70_reset_and_hazards.md R193, through the register bank: after the host has loaded
the words of a list of well-formed instructions that fits program memory, each index of the program decodes to its
instruction, PROG_LEN is their number, words beyond them are as before, and nothing of the engine has changed. -/
def Obligations.LoadedProgramDecodesToItsInstructions : Prop :=
  ∀ (s : State) (is : List Instr), (∀ i ∈ is, i.wellFormed = true) → is.length ≤ s.params.progCap → is.length < 2 ^ 32 →
    s.status ≠ .running → s.status ≠ .configRejected → s.bus = loadActions (is.map encode) →
    ∃ t : State, Host.Core.run Sys2Proof.core (is.length + 2) s = .next t ∧
      (∀ k, (h : k < is.length) → (t.progAt k).map decode = some (is[k]'h)) ∧
      (∀ k, is.length ≤ k → t.progAt k = s.progAt k) ∧
      t = { s with bus := [], prog := t.prog, progLen := BitVec.ofNat 32 is.length,
                   progAddr := BitVec.ofNat 32 is.length }

/-! ## The instructions: result, completion and frame in one -/

/-- 41_cell_arithmetic.md R120. -/
def Obligations.IncAddsOneToTheCurrentCell : Prop :=
  decode 0x0000002B#32 = .inc ∧
  ∀ s : State, s.cellReady → ∃ t : State, exec .inc s = .next t ∧
    t = { s with tape := t.tape, pc := s.pc + 1, steps := s.steps + 1 } ∧
    ∀ a, t.cellAt a =
      if a = s.ptr.toNat then BitVec.ofNat 8 (((s.cellAt s.ptr.toNat).toNat + 1) % 256) else s.cellAt a

/-- 41_cell_arithmetic.md R121. -/
def Obligations.DecSubtractsOneFromTheCurrentCell : Prop :=
  decode 0x0000002D#32 = .dec ∧
  ∀ s : State, s.cellReady → ∃ t : State, exec .dec s = .next t ∧
    t = { s with tape := t.tape, pc := s.pc + 1, steps := s.steps + 1 } ∧
    ∀ a, t.cellAt a =
      if a = s.ptr.toNat then BitVec.ofNat 8 (((s.cellAt s.ptr.toNat).toNat + 255) % 256) else s.cellAt a

/-- 42_pointer.md R130: both forms of the pseudocode.  LEFT never stops, whatever the state. -/
def Obligations.LeftMovesThePointerDownTheRing : Prop :=
  decode 0x0000003C#32 = .left ∧
  ∀ s : State, ∃ t : State, exec .left s = .next t ∧
    t = { s with ptr := t.ptr, pc := s.pc + 1, steps := s.steps + 1 } ∧
    t.ptr = (if s.ptr = 0 then s.cfgTapeLen - 1 else s.ptr - 1) ∧
    (s.ptr < s.cfgTapeLen → t.ptr.toNat = (s.ptr.toNat + s.cfgTapeLen.toNat - 1) % s.cfgTapeLen.toNat)

/-- 42_pointer.md R131: both forms of the pseudocode.  RIGHT never stops, whatever the state. -/
def Obligations.RightMovesThePointerUpTheRing : Prop :=
  decode 0x0000003E#32 = .right ∧
  ∀ s : State, ∃ t : State, exec .right s = .next t ∧
    t = { s with ptr := t.ptr, pc := s.pc + 1, steps := s.steps + 1 } ∧
    t.ptr = (if s.ptr = s.cfgTapeLen - 1 then 0 else s.ptr + 1) ∧
    (s.ptr < s.cfgTapeLen → t.ptr.toNat = (s.ptr.toNat + 1) % s.cfgTapeLen.toNat)

/-- 43_io.md R142: OUT appends the current cell, unless the buffer is full, when it is stuck. -/
def Obligations.OutAppendsTheCurrentCellOrIsStuck : Prop :=
  decode 0x0000002E#32 = .output ∧
  ∀ s : State, s.cellReady →
    (s.params.outCap ≠ some s.outbuf.length →
      exec .output s = .next { s with outbuf := s.outbuf ++ [s.cellAt s.ptr.toNat], pc := s.pc + 1,
                                      steps := s.steps + 1 }) ∧
    (s.params.outCap = some s.outbuf.length → exec .output s = .fault .outputHold)

/-- 43_io.md R144 and R145: IN writes the front of INQ, or 0x00 when it is empty, whatever the cell held. -/
def Obligations.InPopsTheQueueIntoTheCurrentCell : Prop :=
  decode 0x0000002C#32 = .input ∧
  ∀ s : State, s.cellReady → ∃ t : State, exec .input s = .next t ∧
    t = { s with tape := t.tape, inq := s.inq.drop 1, pc := s.pc + 1, steps := s.steps + 1 } ∧
    ∀ a, t.cellAt a =
      if a = s.ptr.toNat then (match s.inq with | [] => 0x00#8 | b :: _ => b) else s.cellAt a

/-- 44_bracket_jump.md R150, with the match as R158 defines it: a nonzero cell falls through, a zero cell jumps past the
matching `]`, and without one below PROG_LEN the instruction raises, with the abort of 60_exceptions.md R174.  The program is
written, as 10_state.md R25 asks.  What the FSM's registers hold afterwards is what R156's last transition wrote (log entry
4). -/
def Obligations.JzFallsThroughOrJumpsOrRaises : Prop :=
  decode 0x0000005B#32 = .jz ∧
  ∀ s : State, s.cellReady → s.pc < s.progLen → s.programWritten →
    (s.cellAt s.ptr.toNat ≠ 0 → exec .jz s = .next { s with pc := s.pc + 1, steps := s.steps + 1 }) ∧
    (s.cellAt s.ptr.toNat = 0 → ∀ j, s.forwardMatch s.pc.toNat j →
      exec .jz s = .next { s with pc := BitVec.ofNat 32 j + 1, steps := s.steps + 1,
                                  scanDir := .idle, scanPos := BitVec.ofNat 32 j, depth := 0 }) ∧
    (s.cellAt s.ptr.toNat = 0 → (∀ j, ¬ s.forwardMatch s.pc.toNat j) →
      ∃ t : State, exec .jz s = .next t ∧ t.status = .errUnmatchedFwd ∧ t.outbuf = [] ∧
        t.pc ≤ s.progLen ∧ (t.steps = s.steps ∨ t.steps = s.steps + 1) ∧
        t = { s with status := t.status, outbuf := t.outbuf, pc := t.pc, steps := t.steps, draws := t.draws,
                     scanDir := .idle, scanPos := t.scanPos, depth := t.depth })

/-- 44_bracket_jump.md R152, with the match as R158 defines it and the abort of 60_exceptions.md R174.  What the FSM's
registers hold afterwards is what R156's last transition wrote (log entry 4). -/
def Obligations.JnzFallsThroughOrJumpsOrRaises : Prop :=
  decode 0x0000005D#32 = .jnz ∧
  ∀ s : State, s.cellReady → s.pc < s.progLen → s.programWritten →
    (s.cellAt s.ptr.toNat = 0 → exec .jnz s = .next { s with pc := s.pc + 1, steps := s.steps + 1 }) ∧
    (s.cellAt s.ptr.toNat ≠ 0 → ∀ i, s.backwardMatch s.pc.toNat i →
      exec .jnz s = .next { s with pc := BitVec.ofNat 32 i + 1, steps := s.steps + 1,
                                   scanDir := .idle, scanPos := BitVec.ofNat 32 i, depth := 0 }) ∧
    (s.cellAt s.ptr.toNat ≠ 0 → (∀ i, ¬ s.backwardMatch s.pc.toNat i) →
      ∃ t : State, exec .jnz s = .next t ∧ t.status = .errUnmatchedBwd ∧ t.outbuf = [] ∧
        t.pc ≤ s.progLen ∧ (t.steps = s.steps ∨ t.steps = s.steps + 1) ∧
        t = { s with status := t.status, outbuf := t.outbuf, pc := t.pc, steps := t.steps, draws := t.draws,
                     scanDir := .idle, scanPos := t.scanPos, depth := t.depth })

/-- 40_dispatch.md R107: every word that is none of the eight codes is a NOP, and a NOP only advances PC and STEPS. -/
def Obligations.NopOnlyAdvances : Prop :=
  ∀ w : Word, w ∉ [0x2B#32, 0x2C#32, 0x2D#32, 0x2E#32, 0x3C#32, 0x3E#32, 0x5B#32, 0x5D#32] →
    decode w = .nop w ∧
    ∀ s : State, exec (.nop w) s = .next { s with pc := s.pc + 1, steps := s.steps + 1 }

/-- 40_dispatch.md R105 and R106: an instruction that does not raise adds one to STEPS, however long its scan was, and one
to PC, a bracket jump after it has put PC onto the matching bracket. -/
def Obligations.EveryInstructionThatDoesNotRaiseAdvances : Prop :=
  ∀ (i : Instr) (s t : State), s.status = .running → exec i s = .next t → t.status = .running →
    t.steps = s.steps + 1 ∧
    (t.pc = s.pc + 1 ∨
      ∃ q : Nat, t.pc = BitVec.ofNat 32 q + 1 ∧
        ((i = .jz ∧ s.forwardMatch s.pc.toNat q) ∨ (i = .jnz ∧ s.backwardMatch s.pc.toNat q)))

/-- Frame of the instructions that write a cell, INC, DEC and IN: one cell at the address of the current cell, and for IN
the queue; every other cell reads as before. -/
def Obligations.StoringInstructionsWriteOneCell : Prop :=
  ∀ (i : Instr) (s t : State), (i = .inc ∨ i = .dec ∨ i = .input) → exec i s = .next t →
    (∀ a, a ≠ s.cellAddress → t.cellAt a = s.cellAt a) ∧
    (i ≠ .input → t.inq = s.inq) ∧
    t = { s with tape := t.tape, inq := t.inq, pc := s.pc + 1, steps := s.steps + 1 }

/-- Frame of the instructions that write no cell: LEFT, RIGHT, OUT, JZ, JNZ and NOP leave every cell and the queue; only
LEFT and RIGHT move PTR; while the run goes on only OUT changes the output; a bracket may also leave the FSM's registers
and, when it raises, the count of free values changed. -/
def Obligations.OtherInstructionsWriteNoCell : Prop :=
  ∀ (i : Instr) (s t : State), s.status = .running → i ≠ .inc → i ≠ .dec → i ≠ .input → exec i s = .next t →
    (∀ a, t.cellAt a = s.cellAt a) ∧
    (i ≠ .left → i ≠ .right → t.ptr = s.ptr) ∧
    (i ≠ .output → t.status = .running → t.outbuf = s.outbuf) ∧
    (i ≠ .jz → i ≠ .jnz →
      t = { s with ptr := t.ptr, outbuf := t.outbuf, pc := s.pc + 1, steps := s.steps + 1 }) ∧
    (t.status = .running → t.draws = s.draws) ∧
    t = { s with ptr := t.ptr, pc := t.pc, steps := t.steps, outbuf := t.outbuf, status := t.status, draws := t.draws,
                 scanDir := t.scanDir, scanPos := t.scanPos, depth := t.depth }

/-- Where an instruction stops, and nowhere else: OUT on a full buffer (43_io.md R146), a bracket scan at a word the host has
not written (10_state.md R25, U6), and the use of the current cell before construction or off the tape (00_scope.md R8,
10_state.md R21; log entries 6 and 7). -/
def Obligations.InstructionsStopOnlyForTheNamedReasons : Prop :=
  ∀ (i : Instr) (s : State),
    (∀ r, exec i s ≠ .refused r) ∧
    (∀ f, exec i s = .fault f →
      (f = .outputHold ∧ i = .output ∧ s.params.outCap = some s.outbuf.length) ∨
      (∃ k, f = .unwrittenWord k ∧ s.progAt k = none ∧
        ((i = .jz ∧ s.cell = 0 ∧ s.pc.toNat < k ∧ k < s.progLen.toNat) ∨ (i = .jnz ∧ s.cell ≠ 0 ∧ k < s.pc.toNat))) ∨
      (f = .cellOutsideTape ∧ s.status.constructed = true ∧ s.cfgTapeLen ≤ s.ptr) ∨
      (f = .tapeUnspecified ∧ s.status.constructed = false)) ∧
    (i ∈ [Instr.inc, .dec, .input, .output, .jz, .jnz] →
      (s.status.constructed = false → exec i s = .fault .tapeUnspecified) ∧
      (s.status.constructed = true → s.cfgTapeLen ≤ s.ptr → exec i s = .fault .cellOutsideTape))

/-- 10_state.md R25 and U6: a scan that comes to a word the host has not written, before it has found the match, is a
fault. -/
def Obligations.ScanOfAnUnwrittenWordFaults : Prop :=
  ∀ (s : State) (k : Nat), s.cellReady → s.progAt k = none →
    (s.cellAt s.ptr.toNat = 0 → s.pc.toNat < k → k < s.progLen.toNat →
      (∀ j < k, s.pc.toNat < j → s.progAt j ≠ none ∧ ¬ s.forwardMatch s.pc.toNat j) →
      exec .jz s = .fault (.unwrittenWord k)) ∧
    (s.cellAt s.ptr.toNat ≠ 0 → k < s.pc.toNat →
      (∀ j < s.pc.toNat, k < j → s.progAt j ≠ none ∧ ¬ s.backwardMatch s.pc.toNat j) →
      exec .jnz s = .fault (.unwrittenWord k))

/-! ## Laws of the units -/

/-- 41_cell_arithmetic.md R123, all four bullets. -/
def Obligations.CellArithmeticIsCyclic : Prop :=
  ∀ v : Byte, cellInc (cellDec v) = v ∧ cellDec (cellInc v) = v ∧
    (∀ k : Nat, (cellInc^[k] v).toNat = (v.toNat + k) % 256) ∧
    (∀ k : Nat, ((cellDec^[k] v).toNat : Int) = ((v.toNat : Int) - k) % 256) ∧
    cellInc^[256] v = v ∧ cellInc 255#8 = 0#8 ∧ cellDec 0#8 = 255#8

/-- 42_pointer.md R132, all five bullets, for every tape length and every pointer on the tape. -/
def Obligations.PointerMovesAreCyclic : Prop :=
  ∀ n p : Word, p < n →
    ptrLeft n (ptrRight n p) = p ∧ ptrRight n (ptrLeft n p) = p ∧
    (∀ k : Nat, ((ptrRight n)^[k] p).toNat = (p.toNat + k) % n.toNat) ∧
    (∀ k : Nat, (((ptrLeft n)^[k] p).toNat : Int) = ((p.toNat : Int) - k) % (n.toNat : Int)) ∧
    (ptrRight n)^[n.toNat] p = p ∧ (ptrLeft n)^[n.toNat] p = p ∧
    (∀ k : Nat, (ptrRight n)^[k] p < n ∧ (ptrLeft n)^[k] p < n) ∧
    (ptrLeft n 0).toNat = n.toNat - 1 ∧ (ptrRight n (n - 1)).toNat = 0

/-- A memory keeps its canonical form, and a read after a write gives the value written there and what was there before
everywhere else; two canonical memories that read the same are the same list (two tapes of one draw, log entry 6).  For the
tape and for program memory. -/
def Obligations.MemoriesReadBackAndStayCanonical : Prop :=
  (∀ (s : State) (a b : Nat) (v : Byte), (s.writeCell a v).cellAt b = if b = a then v else s.cellAt b) ∧
  (∀ (s : State) (i k : Nat) (w : Word), (s.writeProg i w).progAt k = if k = i then some w else s.progAt k) ∧
  (∀ (s : State) (a : Nat) (v : Byte), Memory.wf s.tapeDefault s.tape →
    Memory.wf (s.writeCell a v).tapeDefault (s.writeCell a v).tape) ∧
  (∀ (s : State) (i : Nat) (w : Word), Memory.wf progDefault s.prog → Memory.wf progDefault (s.writeProg i w).prog) ∧
  (∀ s t : State, Memory.wf s.tapeDefault s.tape → Memory.wf t.tapeDefault t.tape → s.tapeDraw = t.tapeDraw →
    (∀ a, s.cellAt a = t.cellAt a) → s.tape = t.tape) ∧
  (∀ s t : State, Memory.wf progDefault s.prog → Memory.wf progDefault t.prog → (∀ i, s.progAt i = t.progAt i) →
    s.prog = t.prog)

/-! ## The dispatch loop -/

/-- 40_dispatch.md R102: in a run, with PC in the program and the budget not used up, a step runs the instruction that the
word at PC encodes, and after it only the POST check; after a `tick` of the host as well. -/
def Obligations.StepRunsTheInstructionAtPc : Prop :=
  ∀ (s u : State) (i : Instr), s.blockRunsFrom u → s.pc < s.progLen → i.wellFormed = true →
    s.progAt s.pc.toNat = some (encode i) →
    ¬ (s.params.phase = .pre ∧ s.budgetEn = true ∧ s.steps = s.cfgMaxSteps) →
    (∀ t : State, exec i u = .next t →
      ¬ (t.status = .running ∧ t.params.phase = .post ∧ t.budgetEn = true ∧ t.steps = t.cfgMaxSteps) →
      step s = .next t) ∧
    (∀ t : State, exec i u = .next t →
      t.status = .running ∧ t.params.phase = .post ∧ t.budgetEn = true ∧ t.steps = t.cfgMaxSteps →
      step s = .next { t with status := .errStepLimit, outbuf := [] }) ∧
    (∀ f : Fault, exec i u = .fault f → step s = .fault f)

/-- 40_dispatch.md R101: PC at or beyond PROG_LEN ends the run in DONE_OK, nothing else changes, and the budget is not
looked at. -/
def Obligations.RunEndsWhenPcReachesTheProgramLength : Prop :=
  ∀ s u : State, s.blockRunsFrom u → s.progLen ≤ s.pc → step s = .next { u with status := .doneOk }

/-- 60_exceptions.md R172: under PRE before the instruction at PC, under POST after the one just executed, and in no other
case does a step of a run end in ERR_STEP_LIMIT. -/
def Obligations.StepLimitFiresExactlyAtTheBudget : Prop :=
  ∀ s u : State, s.blockRunsFrom u → s.pc < s.progLen →
    (s.params.phase = .pre → s.budgetEn = true → s.steps = s.cfgMaxSteps →
      step s = .next { u with status := .errStepLimit, outbuf := [] }) ∧
    (∀ (w : Word) (t : State), s.params.phase = .post → s.progAt s.pc.toNat = some w →
      exec (decode w) u = .next t → t.status = .running → t.budgetEn = true → t.steps = t.cfgMaxSteps →
      step s = .next { t with status := .errStepLimit, outbuf := [] }) ∧
    (∀ t : State, step s = .next t → t.status = .errStepLimit → s.budgetEn = true ∧ t.steps = s.cfgMaxSteps)

/-- 60_exceptions.md R176: when the budget is reached in the iteration of a bracket that would fail, the step limit wins
under PRE and the bracket error under POST. -/
def Obligations.StepLimitWinsUnderPreAndBracketErrorUnderPost : Prop :=
  ∀ (s u t : State) (w : Word), s.blockRunsFrom u → s.pc < s.progLen → s.progAt s.pc.toNat = some w →
    exec (decode w) u = .next t → t.status = .errUnmatchedFwd ∨ t.status = .errUnmatchedBwd → s.budgetEn = true →
    (s.params.phase = .pre → s.steps = s.cfgMaxSteps →
      ∃ v : State, step s = .next v ∧ v.status = .errStepLimit ∧ v.pc = s.pc ∧ v.steps = s.steps) ∧
    (s.params.phase = .post → s.steps + 1 = s.cfgMaxSteps →
      ∃ v : State, step s = .next v ∧ v.status = t.status)

/-- 60_exceptions.md R174: what each abort leaves.  PC and STEPS after a bracket error are free values; the statement
holds for every one of them. -/
def Obligations.AbortDiscardsOutputAndKeepsTheEngine : Prop :=
  ∀ s u t : State, s.blockRunsFrom u → step s = .next t →
    (t.status = .errStepLimit → s.params.phase = .pre → t = { u with status := .errStepLimit, outbuf := [] }) ∧
    (t.status = .errStepLimit → s.params.phase = .post →
      ∃ (w : Word) (v : State), s.progAt s.pc.toNat = some w ∧ exec (decode w) u = .next v ∧
        v.status = .running ∧ v.steps = v.cfgMaxSteps ∧ t = { v with status := .errStepLimit, outbuf := [] }) ∧
    (t.status = .errUnmatchedFwd ∨ t.status = .errUnmatchedBwd →
      t.outbuf = [] ∧ (∀ a, t.cellAt a = s.cellAt a) ∧ t.tape = s.tape ∧ t.ptr = s.ptr ∧ t.inq = s.inq ∧
        t.prog = s.prog ∧ t.progLen = s.progLen ∧
        t.pc ≤ s.progLen ∧ (t.steps = s.steps ∨ t.steps = s.steps + 1))

/-- 60_exceptions.md R170 and R171: the only instruction that raises Unmatched-forward-bracket is JZ on a zero cell, and
the only one that raises Unmatched-backward-bracket is JNZ on a nonzero cell; never a step limit from an instruction. -/
def Obligations.OnlyBracketsRaiseBracketErrors : Prop :=
  ∀ (i : Instr) (s t : State), s.status = .running → exec i s = .next t →
    t.status = .running ∨
    (t.status = .errUnmatchedFwd ∧ i = .jz ∧ s.cellAt s.ptr.toNat = 0 ∧
      (s.pc < s.progLen → ∀ j, ¬ s.forwardMatch s.pc.toNat j)) ∨
    (t.status = .errUnmatchedBwd ∧ i = .jnz ∧ s.cellAt s.ptr.toNat ≠ 0 ∧ ∀ k, ¬ s.backwardMatch s.pc.toNat k)

/-- 10_state.md R25 and U6: fetching a word the host has not written is a fault. -/
def Obligations.FetchOfAnUnwrittenWordFaults : Prop :=
  ∀ s u : State, s.blockRunsFrom u → s.pc < s.progLen →
    ¬ (s.params.phase = .pre ∧ s.budgetEn = true ∧ s.steps = s.cfgMaxSteps) →
    s.progAt s.pc.toNat = none → step s = .fault (.unwrittenWord s.pc.toNat)

/-- 60_exceptions.md R184: between runs the block keeps all its state. -/
def Obligations.BlockKeepsItsStateBetweenRuns : Prop :=
  ∀ s : State, s.status ≠ .running → (s.bus = [] → step s = .next s) ∧
    ∀ rest, s.bus = .tick :: rest → step s = .next { s with bus := rest }

/-- 40_dispatch.md R110, first bullet: with a budget and PRE every run ends, within MAX_STEPS - STEPS + 1 steps of the
block, on a written program and with the output capacity that 43_io.md R146 requires. -/
def Obligations.RunEndsWithinItsBudget : Prop :=
  ∀ s : State, Invariant s → s.blockRuns → s.params.phase = .pre → s.budgetEn = true → s.programWritten →
    s.outCapSuffices →
    ∃ k t, k ≤ s.cfgMaxSteps.toNat - s.steps.toNat + 1 ∧ Host.Core.run Sys2Proof.core k s = .next t ∧
      t.status ∈ [Status.doneOk, .errUnmatchedFwd, .errUnmatchedBwd, .errStepLimit]

/-- 43_io.md R146: with a budget, PRE and OUT_CAP ≥ MAX_STEPS the output hold is unreachable. -/
def Obligations.OutputHoldIsUnreachableWithTheRequiredCapacity : Prop :=
  ∀ s : State, Invariant s → s.params.phase = .pre → s.budgetEn = true → s.outCapSuffices →
    step s ≠ .fault .outputHold

/-- The only faults a step of a reachable machine takes are the output hold and an unwritten program word; it never
refuses, and on a written program with an unbounded output it always has a next state. -/
def Obligations.ReachableStepsStopOnlyForTheTwoNamedReasons : Prop :=
  ∀ s : State, Invariant s →
    (∀ f, step s = .fault f → f = .outputHold ∨ ∃ i, f = .unwrittenWord i ∧ s.progAt i = none) ∧
    (∀ r, step s ≠ .refused r) ∧
    (s.programWritten → s.params.outCap = none → ∃ t, step s = .next t)

/-! ## The invariant -/

/-- Every step keeps the invariant: canonical memories, PTR < N (10_state.md R22), the capacities (R27, R28), STEPS not
above MAX_STEPS under PRE (R30), an idle FSM (44_bracket_jump.md R156) and the rest of `Invariant`. -/
def Obligations.EveryStepKeepsTheInvariant : Prop :=
  ∀ s t : State, Invariant s → step s = .next t → Invariant t

/-- The state after reset meets the invariant, with any legal parameters and whatever the host is about to do. -/
def Obligations.ResetMeetsTheInvariant : Prop :=
  ∀ (p : Config.Params) (b : List HostAction), p.legal → Invariant { State.reset with params := p, bus := b }

/-! ## Whole-machine rules -/

/-- 20_memory.md R72: no instruction writes program memory and no host write reaches it during a run. -/
def Obligations.ProgramIsFixedDuringARun : Prop :=
  ∀ s t : State, s.status = .running → step s = .next t → t.status ≠ .config →
    t.prog = s.prog ∧ t.progLen = s.progLen ∧ t.progAddr = s.progAddr

/-- No step but a hardware or soft reset, or a host write in CONFIG, changes the configuration registers (10_state.md R36 to
R38, "read-only from the COMMIT on") or IN_OVF (R39, R40).  None changes the synthesis parameters of 00_scope.md R6: that
they are a field of State which nothing writes is the model's choice (log entry 1). -/
def Obligations.ConfigurationIsReadOnlyAfterCommit : Prop :=
  ∀ s t : State, step s = .next t → t.params = s.params ∧
    (s.status ≠ .config → t.status ≠ .config →
      t.cfgTapeLen = s.cfgTapeLen ∧ t.cfgFlags = s.cfgFlags ∧ t.cfgMaxSteps = s.cfgMaxSteps ∧ t.inOvf = s.inOvf)

/-- 43_io.md R148: the input queue of a constructed engine only loses bytes at its front, at most one in a step. -/
def Obligations.InputQueueIsNeverRefilled : Prop :=
  ∀ s t : State, s.status.constructed = true → step s = .next t → t.status ≠ .config →
    t.inq = s.inq ∨ t.inq = s.inq.tail

/-- 43_io.md R140: a step that goes on with the run transfers at most one byte, an input byte only in IN and an output byte
only in OUT. -/
def Obligations.AtMostOneTransferPerStep : Prop :=
  ∀ s t : State, s.status = .running → step s = .next t → t.status = .running →
    (t.inq = s.inq ∧ t.outbuf = s.outbuf) ∨
    (s.instrAt s.pc.toNat = some .input ∧ t.inq = s.inq.tail ∧ t.outbuf = s.outbuf) ∨
    (s.instrAt s.pc.toNat = some .output ∧ t.inq = s.inq ∧ t.outbuf = s.outbuf ++ [s.cellAt s.ptr.toNat])

/-- 10_state.md R33 and R156: the registers of the bracket-jump FSM cannot be observed.  Two states that differ only in
them give outcomes that differ only in them. -/
def Obligations.ScanRegistersAreHidden : Prop :=
  ∀ (s : State) (d : ScanDir) (p n : Word),
    (∀ t, step s = .next t → ∃ d' p' n',
      step { s with scanDir := d, scanPos := p, depth := n } = .next { t with scanDir := d', scanPos := p', depth := n' }) ∧
    (∀ f, step s = .fault f → step { s with scanDir := d, scanPos := p, depth := n } = .fault f)

/-- 20_memory.md R65: a host action that neither resets the block, nor constructs it, nor starts a run leaves the tape,
PTR, PC, STEPS, OUTBUF and STATE alone. -/
def Obligations.HostCannotTouchTheEngine : Prop :=
  ∀ (s : State) (a : HostAction) (rest : List HostAction), s.bus = a :: rest → a ≠ .tick → a ≠ .hardReset →
    (∀ v, a ≠ .write 32 0x00 v) → (∀ v, a ≠ .write 32 0x18 v) →
    ∃ t : State, step s = .next t ∧ t.bus = rest ∧ (∀ a, t.cellAt a = s.cellAt a) ∧ t.tape = s.tape ∧ t.ptr = s.ptr ∧
      t.pc = s.pc ∧ t.steps = s.steps ∧
      t.outbuf = s.outbuf ∧ t.status = s.status

/-! ## The bracket-jump FSM and the jump table -/

/-- 44_bracket_jump.md R159: the matching is symmetric. -/
def Obligations.BracketMatchingIsSymmetric : Prop :=
  ∀ (s : State) (i j : Nat), j < s.progLen.toNat → s.instrAt i = some .jz → s.instrAt j = some .jnz →
    (scanForward s.prog (s.progLen.toNat - (i + 1)) i 1 = ⟨.found, j, 0⟩ ↔
      scanBackward s.prog j 1 = ⟨.found, i, 0⟩)

/-- 44_bracket_jump.md R158: on a written program the scans stop at the matches as R158 defines them, in each direction. -/
def Obligations.ScansFindTheNestingMatch : Prop :=
  ∀ (s : State) (i j : Nat), s.programWritten →
    (scanForward s.prog (s.progLen.toNat - (i + 1)) i 1 = ⟨.found, j, 0⟩ ↔ s.forwardMatch i j) ∧
    (j < s.progLen.toNat → (scanBackward s.prog j 1 = ⟨.found, i, 0⟩ ↔ s.backwardMatch j i))

/-- 44_bracket_jump.md R156: the FSM, given as many clocks as it may read words and one to raise, does exactly what JZ and
JNZ do, its own registers included (what they hold between steps: log entry 4; that the clocks stand beside the one-step scan:
log entry 17). -/
def Obligations.FsmDoesWhatTheScansDo : Prop :=
  ∀ s : State, s.cellReady → s.pc < s.progLen →
    fsmJz (s.progLen.toNat - s.pc.toNat) s = exec .jz s ∧ fsmJnz (s.pc.toNat + 1) s = exec .jnz s

/-- 44_bracket_jump.md R158: a table built by the usual stack-based pairing gives the same matches as the scans, and so
leaves the same brackets unmatched, in each direction. -/
def Obligations.StackPairingGivesTheMatchesOfTheScans : Prop :=
  ∀ (s : State) (i j : Nat), s.programWritten →
    (i < s.progLen.toNat → s.instrAt i = some .jz →
      ((i, j) ∈ s.jumpTable ↔ scanForward s.prog (s.progLen.toNat - (i + 1)) i 1 = ⟨.found, j, 0⟩)) ∧
    (j < s.progLen.toNat → s.instrAt j = some .jnz →
      ((i, j) ∈ s.jumpTable ↔ scanBackward s.prog j 1 = ⟨.found, i, 0⟩))

/-! ## Reset, construction and the register bank -/

/-- 70_reset_and_hazards.md R190: the values the spec states for reset, after a hardware reset in any state and after a
SOFT_RESET in any state but RUNNING.  The tape and program memory are unspecified there and not mentioned. -/
def Obligations.ResetLeavesTheStatedValues : Prop :=
  ∀ s t : State, ∀ rest,
    (s.bus = .hardReset :: rest ∨
      ∃ v : Word, s.bus = .write 32 0x00 v :: rest ∧ v.getLsbD 1 = true ∧ s.status ≠ .running) →
    step s = .next t →
    t.status = .config ∧ t.cfgTapeLen = 0 ∧ t.cfgFlags = 0 ∧ t.cfgMaxSteps = 0 ∧ t.inq = [] ∧ t.outbuf = [] ∧
      t.ptr = 0 ∧ t.pc = 0 ∧ t.steps = 0 ∧ t.progLen = 0 ∧ t.progAddr = 0 ∧ t.outAddr = 0 ∧ t.inOvf = false ∧
      t.scanDir = .idle ∧ t.bus = rest

/-- The same values hold of the state after reset itself. -/
def Obligations.ResetStateHasTheStatedValues : Prop :=
  State.reset.status = .config ∧ State.reset.cfgTapeLen = 0 ∧ State.reset.cfgFlags = 0 ∧ State.reset.cfgMaxSteps = 0 ∧
    State.reset.inq = [] ∧ State.reset.outbuf = [] ∧ State.reset.ptr = 0 ∧ State.reset.pc = 0 ∧ State.reset.steps = 0 ∧
    State.reset.progLen = 0 ∧ State.reset.progAddr = 0 ∧ State.reset.outAddr = 0 ∧ State.reset.inOvf = false ∧
    State.reset.scanDir = .idle

/-- 70_reset_and_hazards.md R191: what a write of CFG_COMMIT does, in every case. -/
def Obligations.CommitConstructsOrRejects : Prop :=
  ∀ (s : State) (v : Word) (rest : List HostAction), s.bus = .write 32 0x18 v :: rest →
    (s.status = .config → v.getLsbD 0 = true →
      (s.cfgTapeLen = 0 ∨ s.params.tapeCap < s.cfgTapeLen.toNat ∨ s.inOvf = true) →
      step s = .next { s with bus := rest, status := .configRejected }) ∧
    (s.status = .config → v.getLsbD 0 = true →
      ¬ (s.cfgTapeLen = 0 ∨ s.params.tapeCap < s.cfgTapeLen.toNat ∨ s.inOvf = true) →
      ∃ t : State, step s = .next t ∧ (∀ a, t.cellAt a = 0) ∧
        t = { s with bus := rest, tape := t.tape, tapeDraw := none, ptr := 0, pc := 0, steps := 0, outbuf := [],
                     status := .idle }) ∧
    (s.status ≠ .config ∨ v.getLsbD 0 = false → step s = .next { s with bus := rest })

/-- 10_state.md R35 and 40_dispatch.md R100: what a write of CTRL does, in every case, and what CTRL and STATUS read. -/
def Obligations.CtrlStartsARunOrResets : Prop :=
  ∀ (s : State) (v : Word) (rest : List HostAction),
  (s.bus = .read 32 0x00 :: rest → step s = .next { s with bus := rest, readData := 0 }) ∧
  (s.bus = .read 32 0x04 :: rest → step s = .next { s with bus := rest, readData := s.status.code.setWidth 32 }) ∧
  (s.bus = .write 32 0x00 v :: rest →
    (s.status = .running → step s = .next { s with bus := rest }) ∧
    (v.getLsbD 1 = true → s.status ≠ .running → step s = .next { s with bus := rest }.hardReset) ∧
    (v.getLsbD 1 = false → v.getLsbD 0 = false → step s = .next { s with bus := rest }) ∧
    (v.getLsbD 1 = false → v.getLsbD 0 = true →
      s.status ∈ [Status.idle, .doneOk, .errUnmatchedFwd, .errUnmatchedBwd, .errStepLimit] →
      (s.progLen.toNat ≤ s.params.progCap →
        step s = .next { s with bus := rest, outbuf := [], outAddr := 0, status := .running,
                                steps := if s.cfgFlags.getLsbD 1 then 0 else s.steps }) ∧
      (s.params.progCap < s.progLen.toNat → step s = .next { s with bus := rest })) ∧
    (v.getLsbD 1 = false → s.status = .config ∨ s.status = .configRejected → step s = .next { s with bus := rest }))

/-- 70_reset_and_hazards.md R197: while RUNNING the block ignores every host write except OUT_ADDR. -/
def Obligations.HostWritesAreIgnoredDuringARun : Prop :=
  ∀ (s : State) (bits offset : Nat) (v : Word) (rest : List HostAction), s.status = .running →
    s.bus = .write bits offset v :: rest →
    step s = .next (if bits = 32 ∧ offset = 0x2C then { s with bus := rest, outAddr := v } else { s with bus := rest })

/-- 10_state.md R45: in CONFIG_REJECTED every host write but SOFT_RESET has no effect, and only a reset leaves it. -/
def Obligations.RejectedConfigurationIsLeftOnlyByReset : Prop :=
  ∀ (s t : State) (a : HostAction) (rest : List HostAction), s.status = .configRejected → s.bus = a :: rest →
    step s = .next t →
    ((a = .hardReset ∨ ∃ v : Word, a = .write 32 0x00 v ∧ v.getLsbD 1 = true) → t.status = .config) ∧
    (¬ (a = .hardReset ∨ ∃ v : Word, a = .write 32 0x00 v ∧ v.getLsbD 1 = true) →
      t = { s with bus := rest, readData := t.readData })

/-- 10_state.md R34 and 20_memory.md R64: a read has no side effect but what the host gets; an unlisted offset and another
width read 0 and ignore writes; a write-only register reads 0 and a read-only one ignores writes; STATUS reads the code of
10_state.md R31, OUT_LEN and OUT_DATA what R43 and R44 say (a length that 32 bits do not hold left out, log entry 13), and the
others their value. -/
def Obligations.RegisterReadsHaveNoSideEffect : Prop :=
  ∀ (s : State) (bits offset : Nat) (rest : List HostAction),
    (s.bus = .read bits offset :: rest → ∃ t : State, step s = .next t ∧
      t = { s with bus := rest, readData := t.readData } ∧
      (bits ≠ 32 ∨ offset % 4 ≠ 0 ∨ 0x30 < offset → t.readData = 0) ∧
      (offset ∈ [0x00, 0x14, 0x18, 0x24] → t.readData = 0) ∧
      (bits = 32 → offset = 0x04 → t.readData.toNat =
        (match s.status with
          | .config => 0 | .idle => 1 | .running => 2 | .doneOk => 3
          | .errUnmatchedFwd => 4 | .errUnmatchedBwd => 5 | .errStepLimit => 6 | .configRejected => 7)) ∧
      (bits = 32 → offset = 0x08 → t.readData = s.cfgTapeLen) ∧
      (bits = 32 → offset = 0x0C → t.readData.toNat = s.cfgFlags.toNat) ∧
      (bits = 32 → offset = 0x10 → t.readData = s.cfgMaxSteps) ∧
      (bits = 32 → offset = 0x1C → t.readData = s.progLen) ∧
      (bits = 32 → offset = 0x20 → t.readData = s.progAddr) ∧
      (bits = 32 → offset = 0x28 → s.outbuf.length < 2 ^ 32 →
        t.readData.toNat = if s.status = .doneOk then s.outbuf.length else 0) ∧
      (bits = 32 → offset = 0x2C → t.readData = s.outAddr) ∧
      (bits = 32 → offset = 0x30 → t.readData.toNat =
        if s.status = .doneOk then ((s.outbuf[s.outAddr.toNat]?).map BitVec.toNat).getD 0 else 0)) ∧
    (∀ v, s.bus = .write bits offset v :: rest →
      (bits ≠ 32 ∨ offset % 4 ≠ 0 ∨ 0x30 < offset ∨ offset ∈ [0x04, 0x28, 0x30]) →
      step s = .next { s with bus := rest })

/-- 10_state.md R43: OUT_LEN.  A length that 32 bits do not hold is left out: the spec gives no value there (log entry
13). -/
def Obligations.OutLenReadsTheNumberOfOutputBytes : Prop :=
  ∀ (s : State) (rest : List HostAction), s.bus = .read 32 0x28 :: rest → ∃ t : State, step s = .next t ∧
    (s.status = .doneOk → s.outbuf.length < 2 ^ 32 → t.readData.toNat = s.outbuf.length) ∧
    (s.status ≠ .doneOk → t.readData = 0)

/-- 10_state.md R44: after a success the host collects each output byte by writing its index to OUT_ADDR and reading
OUT_DATA; beyond the last byte, and in every other STATE, OUT_DATA reads 0. -/
def Obligations.HostCollectsTheOutputByteByByte : Prop :=
  ∀ (s : State) (i : Word), s.bus = [.write 32 0x2C i, .read 32 0x30] →
    ∃ t : State, Host.Core.run Sys2Proof.core 2 s = .next t ∧ t.outbuf = s.outbuf ∧ t.status = s.status ∧
      ((h : i.toNat < s.outbuf.length) → s.status = .doneOk → t.readData.toNat = (s.outbuf[i.toNat]'h).toNat) ∧
      (s.outbuf.length ≤ i.toNat → t.readData = 0) ∧ (s.status ≠ .doneOk → t.readData = 0)

/-- 10_state.md R40: IN_PUSH. -/
def Obligations.InPushAppendsOneByteInConfig : Prop :=
  ∀ (s : State) (w : Word) (rest : List HostAction), s.bus = .write 32 0x14 w :: rest →
    (s.status = .config → s.inq.length < s.params.inCap → ∃ b : Byte, b.toNat = w.toNat % 256 ∧
      step s = .next { s with bus := rest, inq := s.inq ++ [b] }) ∧
    (s.status = .config → s.params.inCap ≤ s.inq.length → step s = .next { s with bus := rest, inOvf := true }) ∧
    (s.status ≠ .config → step s = .next { s with bus := rest })

/-- 10_state.md R41: PROG_DATA and PROG_ADDR. -/
def Obligations.ProgDataStoresOneWordAndMovesOn : Prop :=
  ∀ (s : State) (w : Word) (rest : List HostAction), s.bus = .write 32 0x24 w :: rest →
    (s.status ≠ .running → s.status ≠ .configRejected → ∃ t : State, step s = .next t ∧
      t = { s with bus := rest, prog := t.prog, progAddr := s.progAddr + 1 } ∧
      ∀ i, t.progAt i =
        if i = s.progAddr.toNat ∧ s.progAddr.toNat < s.params.progCap then some w else s.progAt i) ∧
    (s.status = .running ∨ s.status = .configRejected → step s = .next { s with bus := rest })

/-- Writes of the plain registers (10_state.md R36 to R38, R42, R43): where the access column permits it the register takes
the value, CFG_FLAGS its two stored bits, and elsewhere nothing happens. -/
def Obligations.PlainRegistersTakeWhatIsWritten : Prop :=
  ∀ (s : State) (offset : Nat) (v : Word) (rest : List HostAction), s.bus = .write 32 offset v :: rest →
    (offset = 0x08 → step s = .next { s with bus := rest, cfgTapeLen := if s.status = .config then v else s.cfgTapeLen }) ∧
    (offset = 0x0C → ∃ t : State, step s = .next t ∧ t = { s with bus := rest, cfgFlags := t.cfgFlags } ∧
      t.cfgFlags.toNat = if s.status = .config then v.toNat % 4 else s.cfgFlags.toNat) ∧
    (offset = 0x10 → step s = .next { s with bus := rest, cfgMaxSteps := if s.status = .config then v else s.cfgMaxSteps }) ∧
    (offset = 0x1C → step s = .next { s with bus := rest, progLen :=
      if s.status = .running ∨ s.status = .configRejected then s.progLen else v }) ∧
    (offset = 0x20 → step s = .next { s with bus := rest, progAddr :=
      if s.status = .running ∨ s.status = .configRejected then s.progAddr else v }) ∧
    (offset = 0x2C → step s = .next { s with bus := rest, outAddr :=
      if s.status = .configRejected then s.outAddr else v })

/-- 70_reset_and_hazards.md R193, steps 2 to 4: the host's boot sequence constructs the engine from the state after
reset, with the input in order, and the same sequence with a refused tape length, or with more input than INQ holds, ends
in CONFIG_REJECTED. -/
def Obligations.BootSequenceConstructsTheEngine : Prop :=
  ∀ (p : Config.Params) (n flags m : Word) (input : List Byte), ∃ t : State,
    Host.Core.run Sys2Proof.core (input.length + 4)
      { State.reset with params := p, bus := bootActions n flags m input } = .next t ∧
    (0 < n → n.toNat ≤ p.tapeCap → input.length ≤ p.inCap →
      t = { State.reset with params := p, status := .idle, tapeDraw := none, cfgTapeLen := n, cfgFlags := t.cfgFlags,
                             cfgMaxSteps := m, inq := input } ∧ t.cfgFlags.toNat = flags.toNat % 4 ∧ ∀ a, t.cellAt a = 0) ∧
    (n = 0 ∨ p.tapeCap < n.toNat ∨ p.inCap < input.length → t.status = .configRejected)

/-- 70_reset_and_hazards.md R195: a re-run of the same program after a success ends at once, with empty output and no
instruction executed. -/
def Obligations.RerunAfterSuccessEndsAtOnce : Prop :=
  ∀ s : State, s.status = .doneOk → s.progLen ≤ s.pc → s.progLen.toNat ≤ s.params.progCap →
    s.bus = [.write 32 0x00 1] →
    Host.Core.run Sys2Proof.core 2 s =
      .next { s with bus := [], outbuf := [], outAddr := 0, steps := if s.stepsResetOnRun then 0 else s.steps }

/-- The placing of an instruction (log entry 11): the very next step runs exactly the placed word, from a state that
differs from the given one only where a fetch needs it. -/
def Obligations.PlacedWordIsRunByTheNextStep : Prop :=
  ∀ (s : State) (nbits w : Nat), nbits ≤ 32 → ∃ i, decodeTableWord nbits w = some i ∧
    step (s.withFetchWord nbits w) = postCheck (exec i (s.withFetchWord nbits w)) ∧
    (∀ k, k ≠ (s.withFetchWord nbits w).pc.toNat → (s.withFetchWord nbits w).progAt k = s.progAt k) ∧
    (s.withFetchWord nbits w).tape = s.tape ∧ (s.withFetchWord nbits w).tapeDraw = none ∧
    (s.withFetchWord nbits w).inq = s.inq ∧
    (s.withFetchWord nbits w).outbuf = s.outbuf ∧ (s.withFetchWord nbits w).steps = s.steps
end

