-- ==== Sys2Proof/Laws/State.lean ====
section
/-! SUPPORT. One lemma per field per named update of the state, so that no proof unfolds a record update. -/

namespace Sys2Proof.Machine

/-! ### `State.advance` -/

@[simp] theorem advance_tape (s : State) : (s.advance).tape = s.tape := rfl
@[simp] theorem advance_ptr (s : State) : (s.advance).ptr = s.ptr := rfl
@[simp] theorem advance_pc (s : State) : (s.advance).pc = s.pc + 1 := rfl
@[simp] theorem advance_prog (s : State) : (s.advance).prog = s.prog := rfl
@[simp] theorem advance_progLen (s : State) : (s.advance).progLen = s.progLen := rfl
@[simp] theorem advance_inq (s : State) : (s.advance).inq = s.inq := rfl
@[simp] theorem advance_outbuf (s : State) : (s.advance).outbuf = s.outbuf := rfl
@[simp] theorem advance_steps (s : State) : (s.advance).steps = s.steps + 1 := rfl
@[simp] theorem advance_status (s : State) : (s.advance).status = s.status := rfl
@[simp] theorem advance_cfgTapeLen (s : State) : (s.advance).cfgTapeLen = s.cfgTapeLen := rfl
@[simp] theorem advance_cfgFlags (s : State) : (s.advance).cfgFlags = s.cfgFlags := rfl
@[simp] theorem advance_cfgMaxSteps (s : State) : (s.advance).cfgMaxSteps = s.cfgMaxSteps := rfl
@[simp] theorem advance_inOvf (s : State) : (s.advance).inOvf = s.inOvf := rfl
@[simp] theorem advance_progAddr (s : State) : (s.advance).progAddr = s.progAddr := rfl
@[simp] theorem advance_outAddr (s : State) : (s.advance).outAddr = s.outAddr := rfl
@[simp] theorem advance_scanDir (s : State) : (s.advance).scanDir = s.scanDir := rfl
@[simp] theorem advance_scanPos (s : State) : (s.advance).scanPos = s.scanPos := rfl
@[simp] theorem advance_depth (s : State) : (s.advance).depth = s.depth := rfl
@[simp] theorem advance_params (s : State) : (s.advance).params = s.params := rfl
@[simp] theorem advance_tapeDraw (s : State) : (s.advance).tapeDraw = s.tapeDraw := rfl
@[simp] theorem advance_draws (s : State) : (s.advance).draws = s.draws := rfl
@[simp] theorem advance_bus (s : State) : (s.advance).bus = s.bus := rfl
@[simp] theorem advance_readData (s : State) : (s.advance).readData = s.readData := rfl

/-! ### `State.writeCell` -/

@[simp] theorem writeCell_tape (s : State) (a : Nat) (v : Byte) : (s.writeCell a v).tape = Memory.write s.tapeDefault s.tape a v := rfl
@[simp] theorem writeCell_ptr (s : State) (a : Nat) (v : Byte) : (s.writeCell a v).ptr = s.ptr := rfl
@[simp] theorem writeCell_pc (s : State) (a : Nat) (v : Byte) : (s.writeCell a v).pc = s.pc := rfl
@[simp] theorem writeCell_prog (s : State) (a : Nat) (v : Byte) : (s.writeCell a v).prog = s.prog := rfl
@[simp] theorem writeCell_progLen (s : State) (a : Nat) (v : Byte) : (s.writeCell a v).progLen = s.progLen := rfl
@[simp] theorem writeCell_inq (s : State) (a : Nat) (v : Byte) : (s.writeCell a v).inq = s.inq := rfl
@[simp] theorem writeCell_outbuf (s : State) (a : Nat) (v : Byte) : (s.writeCell a v).outbuf = s.outbuf := rfl
@[simp] theorem writeCell_steps (s : State) (a : Nat) (v : Byte) : (s.writeCell a v).steps = s.steps := rfl
@[simp] theorem writeCell_status (s : State) (a : Nat) (v : Byte) : (s.writeCell a v).status = s.status := rfl
@[simp] theorem writeCell_cfgTapeLen (s : State) (a : Nat) (v : Byte) : (s.writeCell a v).cfgTapeLen = s.cfgTapeLen := rfl
@[simp] theorem writeCell_cfgFlags (s : State) (a : Nat) (v : Byte) : (s.writeCell a v).cfgFlags = s.cfgFlags := rfl
@[simp] theorem writeCell_cfgMaxSteps (s : State) (a : Nat) (v : Byte) : (s.writeCell a v).cfgMaxSteps = s.cfgMaxSteps := rfl
@[simp] theorem writeCell_inOvf (s : State) (a : Nat) (v : Byte) : (s.writeCell a v).inOvf = s.inOvf := rfl
@[simp] theorem writeCell_progAddr (s : State) (a : Nat) (v : Byte) : (s.writeCell a v).progAddr = s.progAddr := rfl
@[simp] theorem writeCell_outAddr (s : State) (a : Nat) (v : Byte) : (s.writeCell a v).outAddr = s.outAddr := rfl
@[simp] theorem writeCell_scanDir (s : State) (a : Nat) (v : Byte) : (s.writeCell a v).scanDir = s.scanDir := rfl
@[simp] theorem writeCell_scanPos (s : State) (a : Nat) (v : Byte) : (s.writeCell a v).scanPos = s.scanPos := rfl
@[simp] theorem writeCell_depth (s : State) (a : Nat) (v : Byte) : (s.writeCell a v).depth = s.depth := rfl
@[simp] theorem writeCell_params (s : State) (a : Nat) (v : Byte) : (s.writeCell a v).params = s.params := rfl
@[simp] theorem writeCell_tapeDraw (s : State) (a : Nat) (v : Byte) : (s.writeCell a v).tapeDraw = s.tapeDraw := rfl
@[simp] theorem writeCell_draws (s : State) (a : Nat) (v : Byte) : (s.writeCell a v).draws = s.draws := rfl
@[simp] theorem writeCell_bus (s : State) (a : Nat) (v : Byte) : (s.writeCell a v).bus = s.bus := rfl
@[simp] theorem writeCell_readData (s : State) (a : Nat) (v : Byte) : (s.writeCell a v).readData = s.readData := rfl

/-! ### `State.writeProg` -/

@[simp] theorem writeProg_tape (s : State) (i : Nat) (w : Word) : (s.writeProg i w).tape = s.tape := rfl
@[simp] theorem writeProg_ptr (s : State) (i : Nat) (w : Word) : (s.writeProg i w).ptr = s.ptr := rfl
@[simp] theorem writeProg_pc (s : State) (i : Nat) (w : Word) : (s.writeProg i w).pc = s.pc := rfl
@[simp] theorem writeProg_prog (s : State) (i : Nat) (w : Word) : (s.writeProg i w).prog = Memory.write progDefault s.prog i w := rfl
@[simp] theorem writeProg_progLen (s : State) (i : Nat) (w : Word) : (s.writeProg i w).progLen = s.progLen := rfl
@[simp] theorem writeProg_inq (s : State) (i : Nat) (w : Word) : (s.writeProg i w).inq = s.inq := rfl
@[simp] theorem writeProg_outbuf (s : State) (i : Nat) (w : Word) : (s.writeProg i w).outbuf = s.outbuf := rfl
@[simp] theorem writeProg_steps (s : State) (i : Nat) (w : Word) : (s.writeProg i w).steps = s.steps := rfl
@[simp] theorem writeProg_status (s : State) (i : Nat) (w : Word) : (s.writeProg i w).status = s.status := rfl
@[simp] theorem writeProg_cfgTapeLen (s : State) (i : Nat) (w : Word) : (s.writeProg i w).cfgTapeLen = s.cfgTapeLen := rfl
@[simp] theorem writeProg_cfgFlags (s : State) (i : Nat) (w : Word) : (s.writeProg i w).cfgFlags = s.cfgFlags := rfl
@[simp] theorem writeProg_cfgMaxSteps (s : State) (i : Nat) (w : Word) : (s.writeProg i w).cfgMaxSteps = s.cfgMaxSteps := rfl
@[simp] theorem writeProg_inOvf (s : State) (i : Nat) (w : Word) : (s.writeProg i w).inOvf = s.inOvf := rfl
@[simp] theorem writeProg_progAddr (s : State) (i : Nat) (w : Word) : (s.writeProg i w).progAddr = s.progAddr := rfl
@[simp] theorem writeProg_outAddr (s : State) (i : Nat) (w : Word) : (s.writeProg i w).outAddr = s.outAddr := rfl
@[simp] theorem writeProg_scanDir (s : State) (i : Nat) (w : Word) : (s.writeProg i w).scanDir = s.scanDir := rfl
@[simp] theorem writeProg_scanPos (s : State) (i : Nat) (w : Word) : (s.writeProg i w).scanPos = s.scanPos := rfl
@[simp] theorem writeProg_depth (s : State) (i : Nat) (w : Word) : (s.writeProg i w).depth = s.depth := rfl
@[simp] theorem writeProg_params (s : State) (i : Nat) (w : Word) : (s.writeProg i w).params = s.params := rfl
@[simp] theorem writeProg_tapeDraw (s : State) (i : Nat) (w : Word) : (s.writeProg i w).tapeDraw = s.tapeDraw := rfl
@[simp] theorem writeProg_draws (s : State) (i : Nat) (w : Word) : (s.writeProg i w).draws = s.draws := rfl
@[simp] theorem writeProg_bus (s : State) (i : Nat) (w : Word) : (s.writeProg i w).bus = s.bus := rfl
@[simp] theorem writeProg_readData (s : State) (i : Nat) (w : Word) : (s.writeProg i w).readData = s.readData := rfl

/-! ### `State.popInput` -/

@[simp] theorem popInput_tape (s : State) : (s.popInput).tape = s.tape := rfl
@[simp] theorem popInput_ptr (s : State) : (s.popInput).ptr = s.ptr := rfl
@[simp] theorem popInput_pc (s : State) : (s.popInput).pc = s.pc := rfl
@[simp] theorem popInput_prog (s : State) : (s.popInput).prog = s.prog := rfl
@[simp] theorem popInput_progLen (s : State) : (s.popInput).progLen = s.progLen := rfl
@[simp] theorem popInput_inq (s : State) : (s.popInput).inq = s.inq.tail := rfl
@[simp] theorem popInput_outbuf (s : State) : (s.popInput).outbuf = s.outbuf := rfl
@[simp] theorem popInput_steps (s : State) : (s.popInput).steps = s.steps := rfl
@[simp] theorem popInput_status (s : State) : (s.popInput).status = s.status := rfl
@[simp] theorem popInput_cfgTapeLen (s : State) : (s.popInput).cfgTapeLen = s.cfgTapeLen := rfl
@[simp] theorem popInput_cfgFlags (s : State) : (s.popInput).cfgFlags = s.cfgFlags := rfl
@[simp] theorem popInput_cfgMaxSteps (s : State) : (s.popInput).cfgMaxSteps = s.cfgMaxSteps := rfl
@[simp] theorem popInput_inOvf (s : State) : (s.popInput).inOvf = s.inOvf := rfl
@[simp] theorem popInput_progAddr (s : State) : (s.popInput).progAddr = s.progAddr := rfl
@[simp] theorem popInput_outAddr (s : State) : (s.popInput).outAddr = s.outAddr := rfl
@[simp] theorem popInput_scanDir (s : State) : (s.popInput).scanDir = s.scanDir := rfl
@[simp] theorem popInput_scanPos (s : State) : (s.popInput).scanPos = s.scanPos := rfl
@[simp] theorem popInput_depth (s : State) : (s.popInput).depth = s.depth := rfl
@[simp] theorem popInput_params (s : State) : (s.popInput).params = s.params := rfl
@[simp] theorem popInput_tapeDraw (s : State) : (s.popInput).tapeDraw = s.tapeDraw := rfl
@[simp] theorem popInput_draws (s : State) : (s.popInput).draws = s.draws := rfl
@[simp] theorem popInput_bus (s : State) : (s.popInput).bus = s.bus := rfl
@[simp] theorem popInput_readData (s : State) : (s.popInput).readData = s.readData := rfl

/-! ### `State.appendOutput` -/

@[simp] theorem appendOutput_tape (s : State) (v : Byte) : (s.appendOutput v).tape = s.tape := rfl
@[simp] theorem appendOutput_ptr (s : State) (v : Byte) : (s.appendOutput v).ptr = s.ptr := rfl
@[simp] theorem appendOutput_pc (s : State) (v : Byte) : (s.appendOutput v).pc = s.pc := rfl
@[simp] theorem appendOutput_prog (s : State) (v : Byte) : (s.appendOutput v).prog = s.prog := rfl
@[simp] theorem appendOutput_progLen (s : State) (v : Byte) : (s.appendOutput v).progLen = s.progLen := rfl
@[simp] theorem appendOutput_inq (s : State) (v : Byte) : (s.appendOutput v).inq = s.inq := rfl
@[simp] theorem appendOutput_outbuf (s : State) (v : Byte) : (s.appendOutput v).outbuf = s.outbuf ++ [v] := rfl
@[simp] theorem appendOutput_steps (s : State) (v : Byte) : (s.appendOutput v).steps = s.steps := rfl
@[simp] theorem appendOutput_status (s : State) (v : Byte) : (s.appendOutput v).status = s.status := rfl
@[simp] theorem appendOutput_cfgTapeLen (s : State) (v : Byte) : (s.appendOutput v).cfgTapeLen = s.cfgTapeLen := rfl
@[simp] theorem appendOutput_cfgFlags (s : State) (v : Byte) : (s.appendOutput v).cfgFlags = s.cfgFlags := rfl
@[simp] theorem appendOutput_cfgMaxSteps (s : State) (v : Byte) : (s.appendOutput v).cfgMaxSteps = s.cfgMaxSteps := rfl
@[simp] theorem appendOutput_inOvf (s : State) (v : Byte) : (s.appendOutput v).inOvf = s.inOvf := rfl
@[simp] theorem appendOutput_progAddr (s : State) (v : Byte) : (s.appendOutput v).progAddr = s.progAddr := rfl
@[simp] theorem appendOutput_outAddr (s : State) (v : Byte) : (s.appendOutput v).outAddr = s.outAddr := rfl
@[simp] theorem appendOutput_scanDir (s : State) (v : Byte) : (s.appendOutput v).scanDir = s.scanDir := rfl
@[simp] theorem appendOutput_scanPos (s : State) (v : Byte) : (s.appendOutput v).scanPos = s.scanPos := rfl
@[simp] theorem appendOutput_depth (s : State) (v : Byte) : (s.appendOutput v).depth = s.depth := rfl
@[simp] theorem appendOutput_params (s : State) (v : Byte) : (s.appendOutput v).params = s.params := rfl
@[simp] theorem appendOutput_tapeDraw (s : State) (v : Byte) : (s.appendOutput v).tapeDraw = s.tapeDraw := rfl
@[simp] theorem appendOutput_draws (s : State) (v : Byte) : (s.appendOutput v).draws = s.draws := rfl
@[simp] theorem appendOutput_bus (s : State) (v : Byte) : (s.appendOutput v).bus = s.bus := rfl
@[simp] theorem appendOutput_readData (s : State) (v : Byte) : (s.appendOutput v).readData = s.readData := rfl

/-! ### `State.setScan` -/

@[simp] theorem setScan_tape (s : State) (r : Scan) : (s.setScan r).tape = s.tape := rfl
@[simp] theorem setScan_ptr (s : State) (r : Scan) : (s.setScan r).ptr = s.ptr := rfl
@[simp] theorem setScan_pc (s : State) (r : Scan) : (s.setScan r).pc = s.pc := rfl
@[simp] theorem setScan_prog (s : State) (r : Scan) : (s.setScan r).prog = s.prog := rfl
@[simp] theorem setScan_progLen (s : State) (r : Scan) : (s.setScan r).progLen = s.progLen := rfl
@[simp] theorem setScan_inq (s : State) (r : Scan) : (s.setScan r).inq = s.inq := rfl
@[simp] theorem setScan_outbuf (s : State) (r : Scan) : (s.setScan r).outbuf = s.outbuf := rfl
@[simp] theorem setScan_steps (s : State) (r : Scan) : (s.setScan r).steps = s.steps := rfl
@[simp] theorem setScan_status (s : State) (r : Scan) : (s.setScan r).status = s.status := rfl
@[simp] theorem setScan_cfgTapeLen (s : State) (r : Scan) : (s.setScan r).cfgTapeLen = s.cfgTapeLen := rfl
@[simp] theorem setScan_cfgFlags (s : State) (r : Scan) : (s.setScan r).cfgFlags = s.cfgFlags := rfl
@[simp] theorem setScan_cfgMaxSteps (s : State) (r : Scan) : (s.setScan r).cfgMaxSteps = s.cfgMaxSteps := rfl
@[simp] theorem setScan_inOvf (s : State) (r : Scan) : (s.setScan r).inOvf = s.inOvf := rfl
@[simp] theorem setScan_progAddr (s : State) (r : Scan) : (s.setScan r).progAddr = s.progAddr := rfl
@[simp] theorem setScan_outAddr (s : State) (r : Scan) : (s.setScan r).outAddr = s.outAddr := rfl
@[simp] theorem setScan_scanDir (s : State) (r : Scan) : (s.setScan r).scanDir = .idle := rfl
@[simp] theorem setScan_scanPos (s : State) (r : Scan) : (s.setScan r).scanPos = BitVec.ofNat 32 r.pos := rfl
@[simp] theorem setScan_depth (s : State) (r : Scan) : (s.setScan r).depth = BitVec.ofNat 32 r.depth := rfl
@[simp] theorem setScan_params (s : State) (r : Scan) : (s.setScan r).params = s.params := rfl
@[simp] theorem setScan_tapeDraw (s : State) (r : Scan) : (s.setScan r).tapeDraw = s.tapeDraw := rfl
@[simp] theorem setScan_draws (s : State) (r : Scan) : (s.setScan r).draws = s.draws := rfl
@[simp] theorem setScan_bus (s : State) (r : Scan) : (s.setScan r).bus = s.bus := rfl
@[simp] theorem setScan_readData (s : State) (r : Scan) : (s.setScan r).readData = s.readData := rfl

/-! ### `State.finish` -/

@[simp] theorem finish_tape (s : State) : (s.finish).tape = s.tape := rfl
@[simp] theorem finish_ptr (s : State) : (s.finish).ptr = s.ptr := rfl
@[simp] theorem finish_pc (s : State) : (s.finish).pc = s.pc := rfl
@[simp] theorem finish_prog (s : State) : (s.finish).prog = s.prog := rfl
@[simp] theorem finish_progLen (s : State) : (s.finish).progLen = s.progLen := rfl
@[simp] theorem finish_inq (s : State) : (s.finish).inq = s.inq := rfl
@[simp] theorem finish_outbuf (s : State) : (s.finish).outbuf = s.outbuf := rfl
@[simp] theorem finish_steps (s : State) : (s.finish).steps = s.steps := rfl
@[simp] theorem finish_status (s : State) : (s.finish).status = .doneOk := rfl
@[simp] theorem finish_cfgTapeLen (s : State) : (s.finish).cfgTapeLen = s.cfgTapeLen := rfl
@[simp] theorem finish_cfgFlags (s : State) : (s.finish).cfgFlags = s.cfgFlags := rfl
@[simp] theorem finish_cfgMaxSteps (s : State) : (s.finish).cfgMaxSteps = s.cfgMaxSteps := rfl
@[simp] theorem finish_inOvf (s : State) : (s.finish).inOvf = s.inOvf := rfl
@[simp] theorem finish_progAddr (s : State) : (s.finish).progAddr = s.progAddr := rfl
@[simp] theorem finish_outAddr (s : State) : (s.finish).outAddr = s.outAddr := rfl
@[simp] theorem finish_scanDir (s : State) : (s.finish).scanDir = s.scanDir := rfl
@[simp] theorem finish_scanPos (s : State) : (s.finish).scanPos = s.scanPos := rfl
@[simp] theorem finish_depth (s : State) : (s.finish).depth = s.depth := rfl
@[simp] theorem finish_params (s : State) : (s.finish).params = s.params := rfl
@[simp] theorem finish_tapeDraw (s : State) : (s.finish).tapeDraw = s.tapeDraw := rfl
@[simp] theorem finish_draws (s : State) : (s.finish).draws = s.draws := rfl
@[simp] theorem finish_bus (s : State) : (s.finish).bus = s.bus := rfl
@[simp] theorem finish_readData (s : State) : (s.finish).readData = s.readData := rfl

/-! ### `State.startRun` -/

@[simp] theorem startRun_tape (s : State) : (s.startRun).tape = s.tape := rfl
@[simp] theorem startRun_ptr (s : State) : (s.startRun).ptr = s.ptr := rfl
@[simp] theorem startRun_pc (s : State) : (s.startRun).pc = s.pc := rfl
@[simp] theorem startRun_prog (s : State) : (s.startRun).prog = s.prog := rfl
@[simp] theorem startRun_progLen (s : State) : (s.startRun).progLen = s.progLen := rfl
@[simp] theorem startRun_inq (s : State) : (s.startRun).inq = s.inq := rfl
@[simp] theorem startRun_outbuf (s : State) : (s.startRun).outbuf = [] := rfl
@[simp] theorem startRun_steps (s : State) : (s.startRun).steps = if s.stepsResetOnRun then 0 else s.steps := rfl
@[simp] theorem startRun_status (s : State) : (s.startRun).status = .running := rfl
@[simp] theorem startRun_cfgTapeLen (s : State) : (s.startRun).cfgTapeLen = s.cfgTapeLen := rfl
@[simp] theorem startRun_cfgFlags (s : State) : (s.startRun).cfgFlags = s.cfgFlags := rfl
@[simp] theorem startRun_cfgMaxSteps (s : State) : (s.startRun).cfgMaxSteps = s.cfgMaxSteps := rfl
@[simp] theorem startRun_inOvf (s : State) : (s.startRun).inOvf = s.inOvf := rfl
@[simp] theorem startRun_progAddr (s : State) : (s.startRun).progAddr = s.progAddr := rfl
@[simp] theorem startRun_outAddr (s : State) : (s.startRun).outAddr = 0 := rfl
@[simp] theorem startRun_scanDir (s : State) : (s.startRun).scanDir = s.scanDir := rfl
@[simp] theorem startRun_scanPos (s : State) : (s.startRun).scanPos = s.scanPos := rfl
@[simp] theorem startRun_depth (s : State) : (s.startRun).depth = s.depth := rfl
@[simp] theorem startRun_params (s : State) : (s.startRun).params = s.params := rfl
@[simp] theorem startRun_tapeDraw (s : State) : (s.startRun).tapeDraw = s.tapeDraw := rfl
@[simp] theorem startRun_draws (s : State) : (s.startRun).draws = s.draws := rfl
@[simp] theorem startRun_bus (s : State) : (s.startRun).bus = s.bus := rfl
@[simp] theorem startRun_readData (s : State) : (s.startRun).readData = s.readData := rfl

/-! ### `State.raise` -/

@[simp] theorem raise_status (s : State) (e : RunError) : (s.raise e).status = e.status := by cases e <;> rfl
@[simp] theorem raise_outbuf (s : State) (e : RunError) : (s.raise e).outbuf = [] := by cases e <;> rfl
@[simp] theorem raise_tape (s : State) (e : RunError) : (s.raise e).tape = s.tape := by cases e <;> rfl
@[simp] theorem raise_ptr (s : State) (e : RunError) : (s.raise e).ptr = s.ptr := by cases e <;> rfl
@[simp] theorem raise_prog (s : State) (e : RunError) : (s.raise e).prog = s.prog := by cases e <;> rfl
@[simp] theorem raise_progLen (s : State) (e : RunError) : (s.raise e).progLen = s.progLen := by cases e <;> rfl
@[simp] theorem raise_inq (s : State) (e : RunError) : (s.raise e).inq = s.inq := by cases e <;> rfl
@[simp] theorem raise_cfgTapeLen (s : State) (e : RunError) : (s.raise e).cfgTapeLen = s.cfgTapeLen := by cases e <;> rfl
@[simp] theorem raise_cfgFlags (s : State) (e : RunError) : (s.raise e).cfgFlags = s.cfgFlags := by cases e <;> rfl
@[simp] theorem raise_cfgMaxSteps (s : State) (e : RunError) : (s.raise e).cfgMaxSteps = s.cfgMaxSteps := by cases e <;> rfl
@[simp] theorem raise_inOvf (s : State) (e : RunError) : (s.raise e).inOvf = s.inOvf := by cases e <;> rfl
@[simp] theorem raise_progAddr (s : State) (e : RunError) : (s.raise e).progAddr = s.progAddr := by cases e <;> rfl
@[simp] theorem raise_outAddr (s : State) (e : RunError) : (s.raise e).outAddr = s.outAddr := by cases e <;> rfl
@[simp] theorem raise_scanDir (s : State) (e : RunError) : (s.raise e).scanDir = s.scanDir := by cases e <;> rfl
@[simp] theorem raise_scanPos (s : State) (e : RunError) : (s.raise e).scanPos = s.scanPos := by cases e <;> rfl
@[simp] theorem raise_depth (s : State) (e : RunError) : (s.raise e).depth = s.depth := by cases e <;> rfl
@[simp] theorem raise_params (s : State) (e : RunError) : (s.raise e).params = s.params := by cases e <;> rfl
@[simp] theorem raise_tapeDraw (s : State) (e : RunError) : (s.raise e).tapeDraw = s.tapeDraw := by cases e <;> rfl
@[simp] theorem raise_bus (s : State) (e : RunError) : (s.raise e).bus = s.bus := by cases e <;> rfl
@[simp] theorem raise_readData (s : State) (e : RunError) : (s.raise e).readData = s.readData := by cases e <;> rfl

/-- A step-limit abort leaves everything but STATE and OUTBUF (60_exceptions.md R174). -/
theorem raise_stepLimit (s : State) :
    s.raise .stepLimitExceeded = { s with status := .errStepLimit, outbuf := [] } := rfl

/-! ### Condition bits -/

@[simp] theorem advance_budgetEn (s : State) : s.advance.budgetEn = s.budgetEn := rfl
@[simp] theorem advance_tapeDefault (s : State) : s.advance.tapeDefault = s.tapeDefault := rfl
@[simp] theorem writeCell_budgetEn (s : State) (a : Nat) (v : Byte) : (s.writeCell a v).budgetEn = s.budgetEn := rfl
@[simp] theorem writeCell_tapeDefault (s : State) (a : Nat) (v : Byte) : (s.writeCell a v).tapeDefault = s.tapeDefault := rfl
@[simp] theorem popInput_budgetEn (s : State) : s.popInput.budgetEn = s.budgetEn := rfl
@[simp] theorem popInput_tapeDefault (s : State) : s.popInput.tapeDefault = s.tapeDefault := rfl
@[simp] theorem appendOutput_budgetEn (s : State) (v : Byte) : (s.appendOutput v).budgetEn = s.budgetEn := rfl
@[simp] theorem appendOutput_tapeDefault (s : State) (v : Byte) : (s.appendOutput v).tapeDefault = s.tapeDefault := rfl
@[simp] theorem raise_budgetEn (s : State) (e : RunError) : (s.raise e).budgetEn = s.budgetEn := by cases e <;> rfl
@[simp] theorem raise_tapeDefault (s : State) (e : RunError) : (s.raise e).tapeDefault = s.tapeDefault := by cases e <;> rfl

theorem limitReached_iff (s : State) : s.limitReached = true ↔ s.budgetEn = true ∧ s.steps = s.cfgMaxSteps := by
  simp [State.limitReached]

theorem preLimit_iff (s : State) :
    s.preLimit = true ↔ s.params.phase = .pre ∧ s.budgetEn = true ∧ s.steps = s.cfgMaxSteps := by
  simp [State.preLimit, limitReached_iff]

/-- A running engine has been constructed (10_state.md R31). -/
theorem constructed_of_running {s : State} (h : s.status = .running) : s.status.constructed = true := by rw [h]; rfl

end Sys2Proof.Machine
end

