-- ==== Sys2Proof/Laws/Memory.lean ====
section
/-! SUPPORT. The laws of the sparse memories: a read after a write, and the canonical form. -/

namespace Sys2Proof.Machine

variable {α : Type} [DecidableEq α] {d : Nat → Option α} {m : List (Nat × α)}

omit [DecidableEq α] in
theorem Memory.read_put (d : Nat → Option α) (m : List (Nat × α)) (a b : Nat) (v : α) :
    Memory.read d (Memory.put m a v) b = if b = a then some v else Memory.read d m b := by
  induction m with
  | nil =>
    by_cases h : b = a
    · simp [Memory.put, Memory.read, h]
    · simp [Memory.put, Memory.read, h, Ne.symm h]
  | cons c m ih =>
    obtain ⟨k, w⟩ := c
    simp only [Memory.put]
    split
    · by_cases h : b = a
      · simp [Memory.read, h]
      · simp [Memory.read, h, Ne.symm h]
    · split
      · subst a
        by_cases h : b = k
        · simp [Memory.read, h]
        · simp [Memory.read, h, Ne.symm h]
      · simp only [Memory.read, ih]
        by_cases h : b = a
        · subst b; simp [Ne.symm ‹¬ a = k›]
        · simp [h]

omit [DecidableEq α] in
theorem Memory.read_drop (d : Nat → Option α) (m : List (Nat × α)) (a b : Nat) :
    Memory.read d (Memory.drop m a) b = if b = a then d b else Memory.read d m b := by
  induction m with
  | nil => simp [Memory.drop, Memory.read]
  | cons c m ih =>
    obtain ⟨k, w⟩ := c
    rw [Memory.drop] at ih
    by_cases hk : k = a
    · subst k
      by_cases h : b = a
      · subst b; simpa [Memory.drop] using ih
      · simp [Memory.drop, Memory.read, ih, h, Ne.symm h]
    · by_cases h : b = a
      · subst b; simp [Memory.drop, Memory.read, ih, hk]
      · simp [Memory.drop, Memory.read, ih, hk, h]

/-- A read after a write, in any list, canonical or not. -/
theorem Memory.read_write (d : Nat → Option α) (m : List (Nat × α)) (a b : Nat) (v : α) :
    Memory.read d (Memory.write d m a v) b = if b = a then some v else Memory.read d m b := by
  unfold Memory.write
  split
  · rename_i h
    rw [Memory.read_drop]
    by_cases hb : b = a
    · rw [if_pos hb, if_pos hb, hb, h]
    · rw [if_neg hb, if_neg hb]
  · exact Memory.read_put d m a b v

omit [DecidableEq α] in
theorem Memory.mem_put {c : Nat × α} {a : Nat} {v : α} (h : c ∈ Memory.put m a v) : c = (a, v) ∨ c ∈ m := by
  induction m with
  | nil => simpa [Memory.put] using h
  | cons x m ih =>
    obtain ⟨k, w⟩ := x
    simp only [Memory.put] at h
    split at h
    · simpa using h
    · split at h
      · rcases List.mem_cons.1 h with h | h
        · exact .inl h
        · exact .inr (List.mem_cons_of_mem _ h)
      · rcases List.mem_cons.1 h with h | h
        · exact .inr (by simp [h])
        · exact (ih h).imp id (List.mem_cons_of_mem _)

/-- What a write lists: the written pair or an old one. -/
theorem Memory.mem_write {c : Nat × α} {a : Nat} {v : α} (h : c ∈ Memory.write d m a v) : c = (a, v) ∨ c ∈ m := by
  unfold Memory.write at h
  split at h
  · exact .inr (List.mem_of_mem_filter h)
  · exact Memory.mem_put h

omit [DecidableEq α] in
theorem Memory.put_pairwise {a : Nat} {v : α} (h : m.Pairwise (fun x y => x.1 < y.1)) :
    (Memory.put m a v).Pairwise (fun x y => x.1 < y.1) := by
  induction m with
  | nil => simp [Memory.put]
  | cons x m ih =>
    obtain ⟨k, w⟩ := x
    have h1 := (List.pairwise_cons.1 h).1
    have h2 := (List.pairwise_cons.1 h).2
    simp only [Memory.put]
    split
    · rename_i hlt
      refine List.pairwise_cons.2 ⟨fun c hc => ?_, h⟩
      rcases List.mem_cons.1 hc with hc | hc
      · simpa [hc] using hlt
      · exact lt_trans hlt (h1 c hc)
    · split
      · rename_i heq; subst heq; exact List.pairwise_cons.2 ⟨h1, h2⟩
      · rename_i hge hne
        refine List.pairwise_cons.2 ⟨fun c hc => ?_, ih h2⟩
        rcases Memory.mem_put hc with hc | hc
        · subst hc; show k < a; omega
        · exact h1 c hc

/-- A write keeps the canonical form. -/
theorem Memory.wf_write (a : Nat) (v : α) (h : Memory.wf d m) : Memory.wf d (Memory.write d m a v) := by
  refine ⟨?_, fun c hc => ?_⟩
  · unfold Memory.write
    split
    · exact h.1.filter _
    · exact Memory.put_pairwise h.1
  · unfold Memory.write at hc
    split at hc
    · exact h.2 c (List.mem_of_mem_filter hc)
    · rename_i hd
      rcases Memory.mem_put hc with rfl | hc
      · exact hd
      · exact h.2 c hc

/-- The empty memory is canonical. -/
@[simp] theorem Memory.wf_nil : Memory.wf d ([] : List (Nat × α)) := ⟨List.Pairwise.nil, by simp⟩

omit [DecidableEq α] in
theorem Memory.read_eq_default {a : Nat} (h : ∀ c ∈ m, c.1 ≠ a) : Memory.read d m a = d a := by
  induction m with
  | nil => rfl
  | cons x m ih =>
    obtain ⟨k, w⟩ := x
    have hk : k ≠ a := h (k, w) (by simp)
    simp [Memory.read, hk, ih fun c hc => h c (List.mem_cons_of_mem _ hc)]

/-- Two canonical memories that read the same are the same list. -/
theorem Memory.ext_read {m' : List (Nat × α)} (h : Memory.wf d m) (h' : Memory.wf d m')
    (he : ∀ a, Memory.read d m a = Memory.read d m' a) : m = m' := by
  induction m generalizing m' with
  | nil =>
    cases m' with
    | nil => rfl
    | cons y m' =>
      obtain ⟨k, w⟩ := y
      have := he k
      simp [Memory.read] at this
      exact absurd this (h'.2 (k, w) (by simp))
  | cons x m ih =>
    obtain ⟨k, w⟩ := x
    have hx := List.pairwise_cons.1 h.1
    cases m' with
    | nil =>
      have := he k
      simp [Memory.read] at this
      exact absurd this.symm (h.2 (k, w) (by simp))
    | cons y m' =>
      obtain ⟨k', w'⟩ := y
      have hy := List.pairwise_cons.1 h'.1
      have below : ∀ {n : Nat} {l : List (Nat × α)}, (∀ c ∈ l, n < c.1) → ∀ j ≤ n, Memory.read d l j = d j := by
        intro n l hl j hj
        refine Memory.read_eq_default fun c hc => ?_
        have := hl c hc
        omega
      have hkk : k = k' := by
        rcases lt_trichotomy k k' with hlt | heq | hgt
        · have := he k
          rw [Memory.read, if_pos rfl, Memory.read, if_neg (by omega), below hy.1 k (by omega)] at this
          exact absurd this.symm (h.2 (k, w) (by simp))
        · exact heq
        · have := he k'
          rw [Memory.read, if_neg (by omega), below hx.1 k' (by omega), Memory.read, if_pos rfl] at this
          exact absurd this (h'.2 (k', w') (by simp))
      subst hkk
      have hw : w = w' := by simpa [Memory.read] using he k
      subst hw
      congr 1
      refine ih ⟨hx.2, fun c hc => h.2 c (List.mem_cons_of_mem _ hc)⟩
        ⟨hy.2, fun c hc => h'.2 c (List.mem_cons_of_mem _ hc)⟩ fun a => ?_
      by_cases hka : k = a
      · rw [below hx.1 a (by omega), below hy.1 a (by omega)]
      · simpa [Memory.read, hka] using he a

/-! ## The tape and program memory -/

omit [DecidableEq α] in
@[simp] theorem Memory.read_nil (a : Nat) : Memory.read d ([] : List (Nat × α)) a = d a := rfl

@[simp] theorem cellAt_advance (s : State) (a : Nat) : s.advance.cellAt a = s.cellAt a := rfl
@[simp] theorem progAt_advance (s : State) (i : Nat) : s.advance.progAt i = s.progAt i := rfl

/-- A cell reads as written, and every other cell as before. -/
theorem cellAt_writeCell (s : State) (a b : Nat) (v : Byte) :
    (s.writeCell a v).cellAt b = if b = a then v else s.cellAt b := by
  simp only [State.cellAt, writeCell_tape, writeCell_tapeDefault, Memory.read_write]
  split <;> rfl

/-- A word reads as written, and every other word as before. -/
theorem progAt_writeProg (s : State) (i k : Nat) (w : Word) :
    (s.writeProg i w).progAt k = if k = i then some w else s.progAt k := by
  simp only [State.progAt, writeProg_prog, Memory.read_write]

/-- The tape of a newly constructed engine is 0x00 everywhere (10_state.md R21). -/
theorem cellAt_of_tape_nil {s : State} (h : s.tape = []) (hd : s.tapeDraw = none) (a : Nat) : s.cellAt a = 0 := by
  simp [State.cellAt, h, State.tapeDefault, hd]

/-- After a reset and before construction an unlisted cell reads as its free value (10_state.md R46). -/
theorem cellAt_of_drawn {s : State} {k : Nat} (h : s.tape = []) (hd : s.tapeDraw = some k) (a : Nat) :
    s.cellAt a = Config.freeCell k a := by simp [State.cellAt, h, State.tapeDefault, hd]

/-- What an unlisted cell reads as depends on the draw alone. -/
theorem tapeDefault_congr {s t : State} (hd : t.tapeDraw = s.tapeDraw) : t.tapeDefault = s.tapeDefault := by
  funext a; rw [State.tapeDefault, State.tapeDefault, hd]

/-- The cells of a tape are the contents of its list and of its draw. -/
theorem cellAt_congr {s t : State} (h : t.tape = s.tape) (hd : t.tapeDraw = s.tapeDraw) (a : Nat) :
    t.cellAt a = s.cellAt a := by
  rw [State.cellAt, State.cellAt, h, tapeDefault_congr hd]

/-- Every tape cell has a value, so that two canonical tapes of one draw with the same cells are the same list. -/
theorem tape_ext {s t : State} (hs : Memory.wf s.tapeDefault s.tape) (ht : Memory.wf t.tapeDefault t.tape)
    (hd : s.tapeDraw = t.tapeDraw) (h : ∀ a, s.cellAt a = t.cellAt a) : s.tape = t.tape := by
  have hf : t.tapeDefault = s.tapeDefault := tapeDefault_congr hd.symm
  have some_of : ∀ (l : List Host.Cell) (a : Nat), ∃ v, Memory.read s.tapeDefault l a = some v := by
    intro l a
    induction l with
    | nil => rw [Memory.read_nil, State.tapeDefault]; split <;> exact ⟨_, rfl⟩
    | cons x l ih =>
      obtain ⟨k, w⟩ := x
      by_cases hk : k = a
      · exact ⟨w, by simp [Memory.read, hk]⟩
      · simpa [Memory.read, hk] using ih
  refine Memory.ext_read hs (hf ▸ ht) fun a => ?_
  obtain ⟨v, hv⟩ := some_of s.tape a
  obtain ⟨v', hv'⟩ := some_of t.tape a
  have := h a
  simp only [State.cellAt, hf, hv, hv', Option.getD_some] at this
  rw [hv, hv', this]

/-- Two canonical program memories with the same words are the same list. -/
theorem prog_ext {s t : State} (hs : Memory.wf progDefault s.prog) (ht : Memory.wf progDefault t.prog)
    (h : ∀ i, s.progAt i = t.progAt i) : s.prog = t.prog := Memory.ext_read hs ht h

end Sys2Proof.Machine
end

