-- ==== Sys2Proof/Laws/Bracket.lean ====
section
/-! SUPPORT. The laws of the bracket scans: how a scan can end, and when it finds a match, in terms of the bracket level of
the program text. -/

namespace Sys2Proof.Machine

/-! ## The bracket level -/

/-- The weight of the word at an index. -/
def State.weightAt (s : State) (k : Nat) : Int := bracketWeight (s.instrAt k)

/-- How many more `[` than `]` stand before index `n`. -/
def State.level (s : State) (n : Nat) : Int := s.openBrackets 0 n

@[simp] theorem level_zero (s : State) : s.level 0 = 0 := rfl

theorem level_succ (s : State) (n : Nat) : s.level (n + 1) = s.level n + s.weightAt n := by
  simp [State.level, State.openBrackets, State.weightAt]

/-- The brackets in a stretch of the program are the difference of two levels. -/
theorem openBrackets_eq_level (s : State) (a n : Nat) : s.openBrackets a n = s.level (a + n) - s.level a := by
  induction n with
  | zero => simp [State.openBrackets]
  | succ n ih =>
    rw [State.openBrackets, ih, show a + (n + 1) = (a + n) + 1 by omega, level_succ, State.weightAt]
    omega

theorem weightAt_jz {s : State} {k : Nat} (h : s.instrAt k = some .jz) : s.weightAt k = 1 := by
  simp [State.weightAt, bracketWeight, h]

theorem weightAt_jnz {s : State} {k : Nat} (h : s.instrAt k = some .jnz) : s.weightAt k = -1 := by
  simp [State.weightAt, bracketWeight, h]

theorem weightAt_eq_neg_one {s : State} {k : Nat} (h : s.weightAt k < 0) : s.instrAt k = some .jnz := by
  unfold State.weightAt bracketWeight at h
  split at h
  · omega
  · split at h
    · assumption
    · omega

theorem weightAt_eq_one {s : State} {k : Nat} (h : 0 < s.weightAt k) : s.instrAt k = some .jz := by
  unfold State.weightAt bracketWeight at h
  split at h
  · assumption
  · split at h <;> omega

theorem weightAt_bounds (s : State) (k : Nat) : -1 ≤ s.weightAt k ∧ s.weightAt k ≤ 1 := by
  unfold State.weightAt bracketWeight
  split
  · omega
  · split <;> omega

theorem weightAt_other {s : State} {k : Nat} (h : s.instrAt k ≠ some .jz) (h' : s.instrAt k ≠ some .jnz) :
    s.weightAt k = 0 := by
  simp [State.weightAt, bracketWeight, h, h']

/-- An index with a bracket has been written. -/
theorem progAt_of_instrAt {s : State} {k : Nat} {i : Instr} (h : s.instrAt k = some i) :
    ∃ w, s.progAt k = some w ∧ decode w = i := by
  simpa [State.instrAt, Option.map_eq_some_iff] using h

/-! ## One word of a scan -/

/-- A forward scan adds the weight of the word it reads (R150). -/
theorem depthForward_eq {s : State} {k : Nat} {w : Word} (h : s.progAt k = some w) {d : Nat} (hd : 1 ≤ d) :
    (depthForward w d : Int) = d + s.weightAt k := by
  have hi : s.instrAt k = some (decode w) := by simp [State.instrAt, h]
  unfold depthForward
  cases hw : decode w <;> (simp [State.weightAt, bracketWeight, hi, hw]; try omega)

/-- A backward scan subtracts it (R152). -/
theorem depthBackward_eq {s : State} {k : Nat} {w : Word} (h : s.progAt k = some w) {d : Nat} (hd : 1 ≤ d) :
    (depthBackward w d : Int) = d - s.weightAt k := by
  have hi : s.instrAt k = some (decode w) := by simp [State.instrAt, h]
  unfold depthBackward
  cases hw : decode w <;> (simp [State.weightAt, bracketWeight, hi, hw]; try omega)

/-! ## How a scan can end -/

/-- Everything a forward scan at depth 1 or more can do (R150, R151). -/
theorem scanForward_spec (s : State) (left q d : Nat) (hd : 1 ≤ d) :
    (∃ j, scanForward s.prog left q d = ⟨.found, j, 0⟩ ∧ q < j ∧ j ≤ q + left ∧ s.instrAt j = some .jnz) ∨
    (∃ e, scanForward s.prog left q d = ⟨.unmatched, q + left, e⟩ ∧ 1 ≤ e ∧ e ≤ d + left ∧
      ∀ k, q < k → k ≤ q + left → s.progAt k ≠ none) ∨
    (∃ p e, scanForward s.prog left q d = ⟨.unwritten (p + 1), p, e⟩ ∧ q ≤ p ∧ p < q + left ∧
      s.progAt (p + 1) = none ∧ ∀ k, q < k → k ≤ p → s.progAt k ≠ none) := by
  induction left generalizing q d with
  | zero => exact .inr (.inl ⟨d, rfl, hd, by omega, fun k h1 h2 => absurd h1 (by omega)⟩)
  | succ left ih =>
    simp only [scanForward]
    cases hw : Memory.read progDefault s.prog (q + 1) with
    | none => exact .inr (.inr ⟨q, d, rfl, le_refl _, by omega, hw, fun k h1 h2 => absurd h1 (by omega)⟩)
    | some w =>
      have hdep := depthForward_eq (s := s) (k := q + 1) hw hd
      have hb := weightAt_bounds s (q + 1)
      have here : s.progAt (q + 1) ≠ none := by simp [State.progAt, hw]
      have also : ∀ {n : Nat}, (∀ k, q + 1 < k → k ≤ n → s.progAt k ≠ none) → ∀ k, q < k → k ≤ n → s.progAt k ≠ none := by
        intro n h k h1 h2
        by_cases hk : k = q + 1
        · rwa [hk]
        · exact h k (by omega) h2
      dsimp only
      split
      · rename_i h0
        exact .inl ⟨q + 1, rfl, by omega, by omega, weightAt_eq_neg_one (by omega)⟩
      · rcases ih (q + 1) (depthForward w d) (by omega) with ⟨j, h1, h2, h3, h4⟩ | ⟨e, h1, h2, h3, h4⟩ |
          ⟨p, e, h1, h2, h3, h4, h5⟩
        · exact .inl ⟨j, h1, by omega, by omega, h4⟩
        · refine .inr (.inl ⟨e, by rw [h1]; congr 1; omega, h2, by omega, also fun k h5 h6 => h4 k h5 (by omega)⟩)
        · exact .inr (.inr ⟨p, e, h1, by omega, by omega, h4, also h5⟩)

/-- Everything a backward scan at depth 1 or more can do (R152, R153). -/
theorem scanBackward_spec (s : State) (q d : Nat) (hd : 1 ≤ d) :
    (∃ i, scanBackward s.prog q d = ⟨.found, i, 0⟩ ∧ i < q ∧ s.instrAt i = some .jz) ∨
    (∃ e, scanBackward s.prog q d = ⟨.unmatched, 0, e⟩ ∧ 1 ≤ e ∧ e ≤ d + q ∧ ∀ k < q, s.progAt k ≠ none) ∨
    (∃ p e, scanBackward s.prog q d = ⟨.unwritten p, p + 1, e⟩ ∧ p < q ∧ s.progAt p = none ∧
      ∀ k, p < k → k < q → s.progAt k ≠ none) := by
  induction q generalizing d with
  | zero => exact .inr (.inl ⟨d, rfl, hd, by omega, fun k h => absurd h (by omega)⟩)
  | succ q ih =>
    simp only [scanBackward]
    cases hw : Memory.read progDefault s.prog q with
    | none => exact .inr (.inr ⟨q, d, rfl, by omega, hw, fun k h1 h2 => absurd h1 (by omega)⟩)
    | some w =>
      have hdep := depthBackward_eq (s := s) (k := q) hw hd
      have hb := weightAt_bounds s q
      have here : s.progAt q ≠ none := by simp [State.progAt, hw]
      have also : ∀ {k : Nat}, (k < q → s.progAt k ≠ none) → k < q + 1 → s.progAt k ≠ none := by
        intro k h h1
        by_cases hk : k = q
        · rwa [hk]
        · exact h (by omega)
      dsimp only
      split
      · rename_i h0
        exact .inl ⟨q, rfl, by omega, weightAt_eq_one (by omega)⟩
      · rcases ih (depthBackward w d) (by omega) with ⟨j, h1, h2, h4⟩ | ⟨e, h1, h2, h3, h4⟩ | ⟨p, e, h1, h3, h4, h5⟩
        · exact .inl ⟨j, h1, by omega, h4⟩
        · exact .inr (.inl ⟨e, h1, h2, by omega, fun k hk => also (h4 k) hk⟩)
        · exact .inr (.inr ⟨p, e, h1, by omega, h4, fun k hk1 hk2 => also (h5 k hk1) hk2⟩)

/-! ## When a scan finds a match -/

/-- A forward scan stops at the first index where the level has fallen below the scan's depth. -/
theorem scanForward_found_iff (s : State) (left q d j : Nat) (hd : 1 ≤ d) :
    scanForward s.prog left q d = ⟨.found, j, 0⟩ ↔
      q < j ∧ j ≤ q + left ∧ (∀ k, q < k → k ≤ j → s.progAt k ≠ none) ∧
        s.level (j + 1) - s.level (q + 1) = -d ∧
        ∀ k, q < k → k ≤ j → -(d : Int) < s.level k - s.level (q + 1) := by
  induction left generalizing q d with
  | zero => simp [scanForward]; omega
  | succ left ih =>
    simp only [scanForward]
    have hlev : s.level (q + 2) = s.level (q + 1) + s.weightAt (q + 1) := level_succ s (q + 1)
    cases hw : Memory.read progDefault s.prog (q + 1) with
    | none =>
      simp only [Scan.mk.injEq, reduceCtorEq, false_and, false_iff]
      rintro ⟨h1, -, h3, -⟩
      exact h3 (q + 1) (by omega) (by omega) hw
    | some w =>
      have hdep := depthForward_eq (s := s) (k := q + 1) hw hd
      have hwr : s.progAt (q + 1) ≠ none := by simp [State.progAt, hw]
      dsimp only
      split
      · rename_i h0
        rw [h0] at hdep
        constructor
        · intro h
          obtain rfl : q + 1 = j := by simpa using h
          refine ⟨by omega, by omega, fun k h1 h2 => ?_, by rw [show q + 1 + 1 = q + 2 from rfl]; omega, fun k h1 h2 => ?_⟩
          · obtain rfl : k = q + 1 := by omega
            exact hwr
          · obtain rfl : k = q + 1 := by omega
            omega
        · rintro ⟨h1, -, -, -, h5⟩
          by_cases hj : j = q + 1
          · subst hj; rfl
          · have := h5 (q + 2) (by omega) (by omega)
            push_cast at hdep; omega
      · rename_i h0
        rw [ih (q + 1) (depthForward w d) (by omega), hdep, show q + 1 + 1 = q + 2 from rfl]
        constructor
        · rintro ⟨h1, h2, h3, h4, h5⟩
          refine ⟨by omega, by omega, fun k h6 h7 => ?_, by omega, fun k h6 h7 => ?_⟩
          · by_cases hk : k = q + 1
            · subst hk; exact hwr
            · exact h3 k (by omega) h7
          · by_cases hk : k = q + 1
            · subst hk; omega
            · have := h5 k (by omega) h7; omega
        · rintro ⟨h1, h2, h3, h4, h5⟩
          have hj : j ≠ q + 1 := by
            rintro rfl
            have : (depthForward w d : Int) = 0 := by
              rw [show q + 1 + 1 = q + 2 from rfl] at h4; omega
            omega
          refine ⟨by omega, by omega, fun k h6 h7 => h3 k (by omega) h7, by omega, fun k h6 h7 => ?_⟩
          have := h5 k (by omega) h7; omega

/-- A backward scan stops at the first index, going down, where the level has fallen by the scan's depth. -/
theorem scanBackward_found_iff (s : State) (q d i : Nat) (hd : 1 ≤ d) :
    scanBackward s.prog q d = ⟨.found, i, 0⟩ ↔
      i < q ∧ (∀ k, i ≤ k → k < q → s.progAt k ≠ none) ∧ s.level q - s.level i = d ∧
        ∀ k, i < k → k ≤ q → s.level q - s.level k < d := by
  induction q generalizing d with
  | zero => simp [scanBackward]
  | succ q ih =>
    simp only [scanBackward]
    have hlev := level_succ s q
    cases hw : Memory.read progDefault s.prog q with
    | none =>
      simp only [Scan.mk.injEq, reduceCtorEq, false_and, false_iff]
      rintro ⟨h1, h3, -⟩
      exact h3 q (by omega) (by omega) hw
    | some w =>
      have hdep := depthBackward_eq (s := s) (k := q) hw hd
      have hwr : s.progAt q ≠ none := by simp [State.progAt, hw]
      dsimp only
      split
      · rename_i h0
        rw [h0] at hdep
        push_cast at hdep
        constructor
        · intro h
          obtain rfl : q = i := by simpa using h
          refine ⟨by omega, fun k h1 h2 => ?_, by omega, fun k h1 h2 => ?_⟩
          · obtain rfl : k = q := by omega
            exact hwr
          · obtain rfl : k = q + 1 := by omega
            omega
        · rintro ⟨h1, -, -, h5⟩
          by_cases hj : i = q
          · subst hj; rfl
          · have := h5 q (by omega) (by omega); omega
      · rename_i h0
        rw [ih (depthBackward w d) (by omega), hdep]
        constructor
        · rintro ⟨h1, h3, h4, h5⟩
          refine ⟨by omega, fun k h6 h7 => ?_, by omega, fun k h6 h7 => ?_⟩
          · by_cases hk : k = q
            · subst hk; exact hwr
            · exact h3 k h6 (by omega)
          · by_cases hk : k = q + 1
            · subst hk; omega
            · have := h5 k h6 (by omega); omega
        · rintro ⟨h1, h3, h4, h5⟩
          have hj : i ≠ q := by rintro rfl; omega
          refine ⟨by omega, fun k h6 h7 => h3 k h6 (by omega), by omega, fun k h6 h7 => ?_⟩
          have := h5 k h6 (by omega); omega

end Sys2Proof.Machine
end

