-- ==== Sys2Proof/Laws/Exec.lean ====
section
/-! SUPPORT. What the shared operations of the instructions, and each instruction, can do: one lemma each. -/

namespace Sys2Proof.Machine

/-! ## The current cell -/

/-- In a run with PTR on the tape the current cell is there. -/
theorem withCell_ready {s : State} (h : s.cellReady) (k : Byte → Out) : withCell s k = k s.cell := by
  have hc := constructed_of_running h.1
  have hn : ¬ s.cfgTapeLen ≤ s.ptr := by have := h.2; bv_omega
  simp [withCell, hc, hn]

/-- Everything the use of the current cell can do. -/
theorem withCell_cases (s : State) (k : Byte → Out) :
    (s.status.constructed = false ∧ withCell s k = .fault .tapeUnspecified) ∨
    (s.status.constructed = true ∧ s.cfgTapeLen ≤ s.ptr ∧ withCell s k = .fault .cellOutsideTape) ∨
    (s.status.constructed = true ∧ s.ptr < s.cfgTapeLen ∧ withCell s k = k s.cell) := by
  cases hc : s.status.constructed with
  | false => exact .inl ⟨rfl, by simp [withCell, hc]⟩
  | true =>
    by_cases hn : s.cfgTapeLen ≤ s.ptr
    · exact .inr (.inl ⟨rfl, hn, by simp [withCell, hc, hn]⟩)
    · exact .inr (.inr ⟨rfl, by bv_omega, by simp [withCell, hc, hn]⟩)

/-- If the use of the current cell answers a next state, the cell was there. -/
theorem withCell_next {s t : State} {k : Byte → Out} (h : withCell s k = .next t) :
    s.status.constructed = true ∧ s.ptr < s.cfgTapeLen ∧ k s.cell = .next t := by
  rcases withCell_cases s k with ⟨-, h'⟩ | ⟨-, -, h'⟩ | ⟨h1, h2, h'⟩
  · rw [h'] at h; cases h
  · rw [h'] at h; cases h
  · exact ⟨h1, h2, h' ▸ h⟩

theorem zeroCond_iff (v : Byte) : zeroCond v = true ↔ v = 0 := by simp [zeroCond]

/-! ## Free values -/

/-- A free PC lies in the spec's range (60_exceptions.md R174). -/
theorem drawnPc_le (s : State) : s.drawnPc ≤ s.progLen := by
  have h1 : (Config.freePc s.draws).toNat % (s.progLen.toNat + 1) < s.progLen.toNat + 1 := Nat.mod_lt _ (Nat.succ_pos _)
  have h2 := s.progLen.isLt
  rw [BitVec.le_def, State.drawnPc, BitVec.toNat_ofNat, Nat.mod_eq_of_lt (by omega)]
  omega

/-- A free STEPS is one of the spec's two values (R174). -/
theorem drawnSteps_cases (s : State) : s.drawnSteps = s.steps ∨ s.drawnSteps = s.steps + 1 := by
  unfold State.drawnSteps
  split
  · exact .inr rfl
  · exact .inl rfl

/-- What a bracket error leaves (R174). -/
theorem raise_bracket (s : State) {e : RunError} (he : e ≠ .stepLimitExceeded) :
    s.raise e = { s with status := e.status, outbuf := [], pc := s.drawnPc, steps := s.drawnSteps,
                         draws := s.draws + 1 } := by
  cases e
  · rfl
  · rfl
  · exact absurd rfl he

/-! ## The end of a bracket instruction that scanned -/

/-- The state a bracket instruction leaves when its scan found the match at `j`. -/
def jumpedTo (j : Nat) (s : State) : State :=
  { s with pc := BitVec.ofNat 32 j + 1, steps := s.steps + 1, scanDir := .idle, scanPos := BitVec.ofNat 32 j, depth := 0 }

theorem finishScan_found (e : RunError) (j : Nat) (s : State) :
    finishScan e ⟨.found, j, 0⟩ s = .next (jumpedTo j s) := rfl

theorem finishScan_unmatched (e : RunError) (p d : Nat) (s : State) :
    finishScan e ⟨.unmatched, p, d⟩ s = .next ((s.setScan ⟨.unmatched, p, d⟩).raise e) := rfl

theorem finishScan_unwritten (e : RunError) (i p d : Nat) (s : State) :
    finishScan e ⟨.unwritten i, p, d⟩ s = .fault (.unwrittenWord i) := rfl

/-- Everything JZ on a zero cell can do. -/
theorem jzScan_cases (s : State) :
    (∃ j, s.forwardScan = ⟨.found, j, 0⟩ ∧ s.pc.toNat < j ∧ j < s.progLen.toNat ∧ s.instrAt j = some .jnz ∧
      finishScan .unmatchedForward s.forwardScan s = .next (jumpedTo j s)) ∨
    (∃ r, s.forwardScan = r ∧ r.ending = .unmatched ∧
      finishScan .unmatchedForward s.forwardScan s = .next ((s.setScan r).raise .unmatchedForward)) ∨
    (∃ k, s.pc.toNat < k ∧ k < s.progLen.toNat ∧ s.progAt k = none ∧
      finishScan .unmatchedForward s.forwardScan s = .fault (.unwrittenWord k)) := by
  have h := scanForward_spec s (s.progLen.toNat - (s.pc.toNat + 1)) s.pc.toNat 1 le_rfl
  rcases h with ⟨j, h1, h2, h3, h4⟩ | ⟨e, h1, -⟩ | ⟨p, e, h1, h2, h3, h4, -⟩
  · exact .inl ⟨j, h1, h2, by omega, h4, by rw [State.forwardScan, h1, finishScan_found]⟩
  · exact .inr (.inl ⟨_, h1, rfl, by rw [State.forwardScan, h1, finishScan_unmatched]⟩)
  · exact .inr (.inr ⟨p + 1, by omega, by omega, h4, by rw [State.forwardScan, h1, finishScan_unwritten]⟩)

/-- Everything JNZ on a nonzero cell can do. -/
theorem jnzScan_cases (s : State) :
    (∃ i, s.backwardScan = ⟨.found, i, 0⟩ ∧ i < s.pc.toNat ∧ s.instrAt i = some .jz ∧
      finishScan .unmatchedBackward s.backwardScan s = .next (jumpedTo i s)) ∨
    (∃ r, s.backwardScan = r ∧ r.ending = .unmatched ∧
      finishScan .unmatchedBackward s.backwardScan s = .next ((s.setScan r).raise .unmatchedBackward)) ∨
    (∃ k, k < s.pc.toNat ∧ s.progAt k = none ∧
      finishScan .unmatchedBackward s.backwardScan s = .fault (.unwrittenWord k)) := by
  have h := scanBackward_spec s s.pc.toNat 1 le_rfl
  rcases h with ⟨i, h1, h2, h4⟩ | ⟨e, h1, -⟩ | ⟨p, e, h1, h3, h4, -⟩
  · exact .inl ⟨i, h1, h2, h4, by rw [State.backwardScan, h1, finishScan_found]⟩
  · exact .inr (.inl ⟨_, h1, rfl, by rw [State.backwardScan, h1, finishScan_unmatched]⟩)
  · exact .inr (.inr ⟨p, h3, h4, by rw [State.backwardScan, h1, finishScan_unwritten]⟩)

/-! ## What an instruction can do -/

theorem exec_inc (s : State) : exec .inc s = withCell s fun v => .next (s.setCell (cellInc v)).advance := rfl

theorem exec_dec (s : State) : exec .dec s = withCell s fun v => .next (s.setCell (cellDec v)).advance := rfl

theorem exec_left (s : State) : exec .left s = .next { s with ptr := ptrLeft s.cfgTapeLen s.ptr }.advance := rfl

theorem exec_right (s : State) : exec .right s = .next { s with ptr := ptrRight s.cfgTapeLen s.ptr }.advance := rfl

theorem exec_output (s : State) :
    exec .output s = withCell s fun v => if s.outputFull then .fault .outputHold else .next (s.appendOutput v).advance :=
  rfl

theorem exec_input (s : State) : exec .input s = withCell s fun _ => .next (s.popInput.setCell s.inFront).advance := rfl

theorem exec_jz (s : State) :
    exec .jz s = withCell s fun v =>
      if zeroCond v then finishScan .unmatchedForward s.forwardScan s else .next s.advance := rfl

theorem exec_jnz (s : State) :
    exec .jnz s = withCell s fun v =>
      if zeroCond v then .next s.advance else finishScan .unmatchedBackward s.backwardScan s := rfl

theorem exec_nop (ch : Word) (s : State) : exec (.nop ch) s = .next s.advance := rfl

/-- How an instruction that answers a next state got there. -/
inductive Executed (i : Instr) (s : State) : State → Prop where
  | stored (v : Byte) (hi : i = .inc ∨ i = .dec) (hp : s.ptr < s.cfgTapeLen)
      (hv : (i = .inc → v = cellInc s.cell) ∧ (i = .dec → v = cellDec s.cell)) : Executed i s (s.setCell v).advance
  | popped (hi : i = .input) (hp : s.ptr < s.cfgTapeLen) : Executed i s (s.popInput.setCell s.inFront).advance
  | moved (p : Word) (hi : i = .left ∨ i = .right)
      (hp : (i = .left → p = ptrLeft s.cfgTapeLen s.ptr) ∧ (i = .right → p = ptrRight s.cfgTapeLen s.ptr)) :
      Executed i s { s with ptr := p }.advance
  | appended (hi : i = .output) (hf : s.params.outCap ≠ some s.outbuf.length) :
      Executed i s (s.appendOutput s.cell).advance
  | passed (hi : (∃ ch, i = .nop ch) ∨ (i = .jz ∧ s.cell ≠ 0) ∨ (i = .jnz ∧ s.cell = 0)) : Executed i s s.advance
  | jumped (j : Nat)
      (hi : (i = .jz ∧ s.cell = 0 ∧ s.forwardScan = ⟨.found, j, 0⟩ ∧ s.pc.toNat < j ∧ j < s.progLen.toNat ∧
          s.instrAt j = some .jnz) ∨
        (i = .jnz ∧ s.cell ≠ 0 ∧ s.backwardScan = ⟨.found, j, 0⟩ ∧ j < s.pc.toNat ∧ s.instrAt j = some .jz)) :
      Executed i s (jumpedTo j s)
  | raised (r : Scan) (e : RunError) (hr : r.ending = .unmatched)
      (hi : (i = .jz ∧ s.cell = 0 ∧ s.forwardScan = r ∧ e = .unmatchedForward) ∨
        (i = .jnz ∧ s.cell ≠ 0 ∧ s.backwardScan = r ∧ e = .unmatchedBackward)) :
      Executed i s ((s.setScan r).raise e)

/-- Everything an instruction that answers a next state can have done. -/
theorem exec_next {i : Instr} {s t : State} (h : exec i s = .next t) : Executed i s t := by
  cases i with
  | inc =>
    rw [exec_inc] at h
    obtain ⟨-, hp, h⟩ := withCell_next h
    cases h
    exact .stored _ (.inl rfl) hp ⟨fun _ => rfl, fun h => by cases h⟩
  | dec =>
    rw [exec_dec] at h
    obtain ⟨-, hp, h⟩ := withCell_next h
    cases h
    exact .stored _ (.inr rfl) hp ⟨fun h => (by cases h), fun _ => rfl⟩
  | input =>
    rw [exec_input] at h
    obtain ⟨-, hp, h⟩ := withCell_next h
    cases h
    exact .popped rfl hp
  | output =>
    rw [exec_output] at h
    obtain ⟨-, hp, h⟩ := withCell_next h
    split at h
    · cases h
    · rename_i hf
      cases h
      exact .appended rfl (by simpa [State.outputFull] using hf)
  | left =>
    rw [exec_left] at h
    cases h
    exact .moved _ (.inl rfl) ⟨fun _ => rfl, fun h => by cases h⟩
  | right =>
    rw [exec_right] at h
    cases h
    exact .moved _ (.inr rfl) ⟨fun h => (by cases h), fun _ => rfl⟩
  | jz =>
    rw [exec_jz] at h
    obtain ⟨-, hp, h⟩ := withCell_next h
    split at h
    · rename_i hz
      rw [zeroCond_iff] at hz
      rcases jzScan_cases s with ⟨j, h1, h2, h3, h4, h5⟩ | ⟨r, h1, h2, h3⟩ | ⟨k, -, -, -, h3⟩
      · rw [h5] at h; cases h; exact .jumped j (.inl ⟨rfl, hz, h1, h2, h3, h4⟩)
      · rw [h3] at h; cases h; exact .raised r _ h2 (.inl ⟨rfl, hz, h1, rfl⟩)
      · rw [h3] at h; cases h
    · rename_i hz
      cases h
      exact .passed (.inr (.inl ⟨rfl, fun h0 => hz ((zeroCond_iff _).2 h0)⟩))
  | jnz =>
    rw [exec_jnz] at h
    obtain ⟨-, hp, h⟩ := withCell_next h
    split at h
    · rename_i hz
      cases h
      exact .passed (.inr (.inr ⟨rfl, (zeroCond_iff _).1 hz⟩))
    · rename_i hz
      have hz : s.cell ≠ 0 := fun h0 => hz ((zeroCond_iff _).2 h0)
      rcases jnzScan_cases s with ⟨j, h1, h2, h4, h5⟩ | ⟨r, h1, h2, h3⟩ | ⟨k, -, -, h3⟩
      · rw [h5] at h; cases h; exact .jumped j (.inr ⟨rfl, hz, h1, h2, h4⟩)
      · rw [h3] at h; cases h; exact .raised r _ h2 (.inr ⟨rfl, hz, h1, rfl⟩)
      · rw [h3] at h; cases h
  | nop ch =>
    rw [exec_nop] at h
    cases h
    exact .passed (.inl ⟨ch, rfl⟩)

end Sys2Proof.Machine
end

