-- ==== Sys2Proof/Laws/Loop.lean ====
section
/-! SUPPORT. What one step of the machine can do: the inversion lemmas of the dispatch loop and of the host's actions. -/

namespace Sys2Proof.Machine

/-! ## The POST check -/

theorem postCheck_fault {o : Out} {f : Fault} : postCheck o = .fault f ↔ o = .fault f := by
  cases o with
  | next t => simp only [postCheck]; split <;> simp
  | fault g => simp [postCheck]
  | refused r => simp [postCheck]

theorem postCheck_refused {o : Out} {r : Refusal} : postCheck o = .refused r ↔ o = .refused r := by
  cases o with
  | next t => simp only [postCheck]; split <;> simp
  | fault g => simp [postCheck]
  | refused r => simp [postCheck]

/-- Everything the POST check can answer as a next state (R104). -/
theorem postCheck_next {o : Out} {t : State} (h : postCheck o = .next t) :
    ∃ u, o = .next u ∧
      ((t = u ∧ ¬ (u.status = .running ∧ u.params.phase = .post ∧ u.limitReached = true)) ∨
        (t = u.raise .stepLimitExceeded ∧ u.status = .running ∧ u.params.phase = .post ∧ u.limitReached = true)) := by
  cases o with
  | next u =>
    simp only [postCheck] at h
    split at h
    · rename_i hc; cases h; exact ⟨u, rfl, .inr ⟨rfl, hc⟩⟩
    · rename_i hc; cases h; exact ⟨t, rfl, .inl ⟨rfl, hc⟩⟩
  | fault g => cases h
  | refused r => cases h

/-! ## A step of the block -/

theorem blockStep_not_running {s : State} (h : s.status ≠ .running) : blockStep s = .next s := by simp [blockStep, h]

/-- In a run with PC in the program and the budget not used up, the block fetches and executes. -/
theorem blockStep_executes {s : State} {w : Word} (h : s.status = .running) (hp : s.pc < s.progLen)
    (hl : s.preLimit = false) (hw : s.progAt s.pc.toNat = some w) : blockStep s = postCheck (exec (decode w) s) := by
  have hn : ¬ s.progLen ≤ s.pc := by bv_omega
  simp [blockStep, h, hn, hl, iterate, hw]

/-- How a step of the block that answers a next state got there (40_dispatch.md R101 to R104). -/
inductive BlockMoved (s : State) : State → Prop where
  | waited (h : s.status ≠ .running) : BlockMoved s s
  | finished (h : s.status = .running) (hp : s.progLen ≤ s.pc) : BlockMoved s s.finish
  | preLimit (h : s.status = .running) (hp : s.pc < s.progLen) (hl : s.preLimit = true) :
      BlockMoved s (s.raise .stepLimitExceeded)
  | executed (w : Word) (t : State) (h : s.status = .running) (hp : s.pc < s.progLen) (hl : s.preLimit = false)
      (hw : s.progAt s.pc.toNat = some w) (he : exec (decode w) s = .next t)
      (hn : ¬ (t.status = .running ∧ t.params.phase = .post ∧ t.limitReached = true)) : BlockMoved s t
  | postLimit (w : Word) (u : State) (h : s.status = .running) (hp : s.pc < s.progLen) (hl : s.preLimit = false)
      (hw : s.progAt s.pc.toNat = some w) (he : exec (decode w) s = .next u)
      (hr : u.status = .running) (hph : u.params.phase = .post) (hlu : u.limitReached = true) :
      BlockMoved s (u.raise .stepLimitExceeded)

/-- Everything a step of the block that answers a next state can have done. -/
theorem blockStep_next {s t : State} (h : blockStep s = .next t) : BlockMoved s t := by
  unfold blockStep at h
  split at h
  · rename_i hr
    split at h
    · rename_i hp; cases h; exact .finished hr hp
    · rename_i hp
      have hp : s.pc < s.progLen := by bv_omega
      split at h
      · rename_i hl; cases h; exact .preLimit hr hp hl
      · rename_i hl
        have hl : s.preLimit = false := by simpa using hl
        unfold iterate at h
        cases hw : s.progAt s.pc.toNat with
        | none => rw [hw] at h; cases h
        | some w =>
          rw [hw] at h
          obtain ⟨u, he, ⟨rfl, hn⟩ | ⟨rfl, h1, h2, h3⟩⟩ := postCheck_next h
          · exact .executed w t hr hp hl hw he hn
          · exact .postLimit w u hr hp hl hw he h1 h2 h3
  · rename_i hr; cases h; exact .waited hr

/-- Where a step of the block faults. -/
theorem blockStep_fault {s : State} {f : Fault} (h : blockStep s = .fault f) :
    s.status = .running ∧ s.pc < s.progLen ∧ s.preLimit = false ∧
      ((f = .unwrittenWord s.pc.toNat ∧ s.progAt s.pc.toNat = none) ∨
        ∃ w, s.progAt s.pc.toNat = some w ∧ exec (decode w) s = .fault f) := by
  unfold blockStep at h
  split at h
  · rename_i hr
    split at h
    · cases h
    · rename_i hp
      split at h
      · cases h
      · rename_i hl
        refine ⟨hr, by bv_omega, by simpa using hl, ?_⟩
        unfold iterate at h
        cases hw : s.progAt s.pc.toNat with
        | none => rw [hw] at h; cases h; exact .inl ⟨rfl, rfl⟩
        | some w => rw [hw] at h; exact .inr ⟨w, rfl, postCheck_fault.1 h⟩
  · cases h

/-! ## A step of the machine -/

theorem step_nil {s : State} (h : s.bus = []) : step s = blockStep s := by simp [step, machineStep, h]

theorem step_cons {s : State} {a : HostAction} {rest : List HostAction} (h : s.bus = a :: rest) :
    step s = hostAct a { s with bus := rest } := by simp [step, machineStep, h]

theorem step_tick {s : State} {rest : List HostAction} (h : s.bus = .tick :: rest) :
    step s = blockStep { s with bus := rest } := step_cons h

theorem step_write {s : State} {bits offset : Nat} {v : Word} {rest : List HostAction}
    (h : s.bus = .write bits offset v :: rest) : step s = .next (State.hostWrite { s with bus := rest } bits offset v) :=
  step_cons h

theorem step_read {s : State} {bits offset : Nat} {rest : List HostAction} (h : s.bus = .read bits offset :: rest) :
    step s = .next { s with bus := rest, readData := State.hostRead { s with bus := rest } bits offset } := step_cons h

theorem step_hardReset {s : State} {rest : List HostAction} (h : s.bus = .hardReset :: rest) :
    step s = .next (State.hardReset { s with bus := rest }) := step_cons h

/-- A run of one more step. -/
theorem run_next {k : Nat} {s t : State} (h : step s = .next t) :
    Host.Core.run Sys2Proof.core (k + 1) s = Host.Core.run Sys2Proof.core k t := by
  have h' : Sys2Proof.core.step s = .next t := h
  simp only [Host.Core.run, h']

theorem run_zero (s : State) : Host.Core.run Sys2Proof.core 0 s = .next s := rfl

/-! ## Host writes -/

/-- What a permitted, effective host write changes: one of the ten cases of the register bank (10_state.md R35 to R43,
70_reset_and_hazards.md R191), or nothing. -/
inductive HostWrote (s : State) : State → Prop where
  | nothing : HostWrote s s
  | reset (h : s.status ≠ .running) : HostWrote s s.hardReset
  | started (h : s.status.startable = true) (hl : s.progLen.toNat ≤ s.params.progCap) : HostWrote s s.startRun
  | tapeLen (v : Word) (h : s.status = .config) : HostWrote s { s with cfgTapeLen := v }
  | flags (v : BitVec 2) (h : s.status = .config) : HostWrote s { s with cfgFlags := v }
  | maxSteps (v : Word) (h : s.status = .config) : HostWrote s { s with cfgMaxSteps := v }
  | pushed (b : Byte) (h : s.status = .config) (hl : s.inq.length < s.params.inCap) :
      HostWrote s { s with inq := s.inq ++ [b] }
  | overflow (h : s.status = .config) : HostWrote s { s with inOvf := true }
  | committed (h : s.status = .config) : HostWrote s s.construct
  | progLen (v : Word) (h : s.status ≠ .running) : HostWrote s { s with progLen := v }
  | progAddr (v : Word) (h : s.status ≠ .running) : HostWrote s { s with progAddr := v }
  | progData (v : Word) (h : s.status ≠ .running) : HostWrote s (s.writeProgData v)
  | outAddr (v : Word) : HostWrote s { s with outAddr := v }

/-- Everything a host write can do. -/
theorem hostWrite_cases (s : State) (bits offset : Nat) (v : Word) : HostWrote s (s.hostWrite bits offset v) := by
  unfold State.hostWrite
  cases HostReg.select bits offset with
  | none => exact .nothing
  | some r =>
    dsimp only
    split
    · rename_i hw
      cases r <;> simp [HostReg.writable] at hw <;> dsimp only [State.writeReg]
      · unfold State.writeCtrl
        split
        · split
          · exact .nothing
          · exact .reset ‹_›
        · split
          · rename_i hc
            simp at hc
            exact .started hc.1.2 hc.2
          · exact .nothing
      · exact .tapeLen v hw
      · exact .flags _ hw
      · exact .maxSteps v hw
      · unfold State.pushInput
        split
        · exact .pushed _ hw ‹_›
        · exact .overflow hw
      · split
        · exact .committed hw
        · exact .nothing
      · exact .progLen v hw.1
      · exact .progAddr v hw.1
      · exact .progData v hw.1
      · exact .outAddr v
    · exact .nothing

/-- How a step that answers a next state got there: the block moved, or one host action took effect. -/
theorem step_next {s t : State} (h : step s = .next t) :
    ∃ rest, (s.bus = [] ∧ rest = [] ∨ ∃ a, s.bus = a :: rest) ∧
      (BlockMoved { s with bus := rest } t ∨ HostWrote { s with bus := rest } t ∨
        (∃ v, t = { s with bus := rest, readData := v }) ∨ t = State.hardReset { s with bus := rest }) := by
  cases hb : s.bus with
  | nil =>
    refine ⟨[], .inl ⟨rfl, rfl⟩, .inl (blockStep_next ?_)⟩
    rw [step_nil hb] at h
    rw [← hb]
    exact h
  | cons a rest =>
    rw [step_cons hb] at h
    refine ⟨rest, .inr ⟨a, rfl⟩, ?_⟩
    cases a with
    | tick => exact .inl (blockStep_next h)
    | write bits offset v => cases h; exact .inr (.inl (hostWrite_cases _ _ _ _))
    | read bits offset => cases h; exact .inr (.inr (.inl ⟨_, rfl⟩))
    | hardReset => cases h; exact .inr (.inr (.inr rfl))

end Sys2Proof.Machine
end

