-- ==== Sys2Proof/Laws/HostPort.lean ====
section
/-! SUPPORT. What each host access of the register bank does, one lemma per register. -/

namespace Sys2Proof.Machine

/-- An access reaches a register only at its listed offset, and only with 32 bits. -/
theorem select_eq_some {bits offset : Nat} {r : HostReg} (h : HostReg.select bits offset = some r) :
    bits = 32 ∧ (offset, r) ∈ [(0x00, HostReg.ctrl), (0x04, .status), (0x08, .cfgTapeLen), (0x0C, .cfgFlags),
      (0x10, .cfgMaxSteps), (0x14, .inPush), (0x18, .cfgCommit), (0x1C, .progLen), (0x20, .progAddr), (0x24, .progData),
      (0x28, .outLen), (0x2C, .outAddr), (0x30, .outData)] := by
  unfold HostReg.select at h
  split at h
  · split at h <;> simp at h <;> subst h <;> simp [*]
  · cases h

/-- No register at another width, an unaligned offset or one above the bank. -/
theorem select_eq_none {bits offset : Nat} (h : bits ≠ 32 ∨ offset % 4 ≠ 0 ∨ 0x30 < offset) :
    HostReg.select bits offset = none := by
  cases hr : HostReg.select bits offset with
  | none => rfl
  | some r =>
    obtain ⟨rfl, hm⟩ := select_eq_some hr
    simp only [List.mem_cons, List.not_mem_nil, or_false, Prod.mk.injEq] at hm
    omega

theorem hostWrite_none {s : State} {bits offset : Nat} (v : Word) (h : HostReg.select bits offset = none) :
    s.hostWrite bits offset v = s := by simp [State.hostWrite, h]

theorem hostWrite_some {s : State} {bits offset : Nat} {r : HostReg} (v : Word)
    (h : HostReg.select bits offset = some r) :
    s.hostWrite bits offset v = if r.writable s.status then s.writeReg r v else s := by simp [State.hostWrite, h]

theorem hostRead_none {s : State} {bits offset : Nat} (h : HostReg.select bits offset = none) :
    s.hostRead bits offset = 0 := by simp [State.hostRead, h]

/-! ## CTRL (10_state.md R35) -/

theorem hostWrite_ctrl (s : State) (v : Word) : s.hostWrite 32 0x00 v = s.writeCtrl v := rfl

theorem writeCtrl_softReset {s : State} {v : Word} (hv : v.getLsbD 1 = true) (hs : s.status ≠ .running) :
    s.writeCtrl v = s.hardReset := by rw [State.writeCtrl, if_pos hv, if_neg hs]

theorem writeCtrl_start {s : State} {v : Word} (h1 : v.getLsbD 1 = false) (h0 : v.getLsbD 0 = true)
    (hs : s.status.startable = true) (hl : s.progLen.toNat ≤ s.params.progCap) : s.writeCtrl v = s.startRun := by
  unfold State.writeCtrl
  rw [if_neg (by rw [h1]; decide), if_pos (by rw [h0, hs, decide_eq_true hl]; rfl)]

/-- In every other case the write has no effect. -/
theorem writeCtrl_ignored {s : State} {v : Word} (h1 : v.getLsbD 1 = true → s.status = .running)
    (h0 : v.getLsbD 1 = false → v.getLsbD 0 = true → s.status.startable = true → s.params.progCap < s.progLen.toNat) :
    s.writeCtrl v = s := by
  unfold State.writeCtrl
  cases hv : v.getLsbD 1 with
  | true => rw [if_pos rfl, if_pos (h1 hv)]
  | false =>
    rw [if_neg Bool.false_ne_true, if_neg]
    simp only [Bool.and_eq_true, decide_eq_true_eq, not_and]
    exact fun ⟨h, h'⟩ => Nat.not_le.2 (h0 hv h h')

/-! ## The configuration registers and IN_PUSH (10_state.md R36 to R40) -/

theorem hostWrite_cfgTapeLen (s : State) (v : Word) :
    s.hostWrite 32 0x08 v = { s with cfgTapeLen := if s.status = .config then v else s.cfgTapeLen } := by
  rw [hostWrite_some v rfl]
  by_cases h : s.status = .config <;> simp [HostReg.writable, State.writeReg, h]

theorem hostWrite_cfgFlags (s : State) (v : Word) :
    s.hostWrite 32 0x0C v = { s with cfgFlags := if s.status = .config then v.setWidth 2 else s.cfgFlags } := by
  rw [hostWrite_some v rfl]
  by_cases h : s.status = .config <;> simp [HostReg.writable, State.writeReg, h]

theorem hostWrite_cfgMaxSteps (s : State) (v : Word) :
    s.hostWrite 32 0x10 v = { s with cfgMaxSteps := if s.status = .config then v else s.cfgMaxSteps } := by
  rw [hostWrite_some v rfl]
  by_cases h : s.status = .config <;> simp [HostReg.writable, State.writeReg, h]

theorem hostWrite_inPush (s : State) (v : Word) :
    s.hostWrite 32 0x14 v = if s.status = .config then s.pushInput v else s := by
  rw [hostWrite_some v rfl]
  by_cases h : s.status = .config <;> simp [HostReg.writable, State.writeReg, h]

theorem pushInput_room {s : State} (v : Word) (h : s.inq.length < s.params.inCap) :
    s.pushInput v = { s with inq := s.inq ++ [v.setWidth 8] } := if_pos h

theorem pushInput_full {s : State} (v : Word) (h : ¬ s.inq.length < s.params.inCap) :
    s.pushInput v = { s with inOvf := true } := if_neg h

/-! ## CFG_COMMIT (70_reset_and_hazards.md R191) -/

theorem hostWrite_cfgCommit (s : State) (v : Word) :
    s.hostWrite 32 0x18 v = if s.status = .config ∧ v.getLsbD 0 = true then s.construct else s := by
  rw [hostWrite_some v rfl]
  by_cases h : s.status = .config <;> simp [HostReg.writable, State.writeReg, h]

theorem construct_rejected {s : State}
    (h : s.cfgTapeLen = 0 ∨ s.params.tapeCap < s.cfgTapeLen.toNat ∨ s.inOvf = true) :
    s.construct = { s with status := .configRejected } := if_pos h

theorem construct_accepted {s : State}
    (h : ¬ (s.cfgTapeLen = 0 ∨ s.params.tapeCap < s.cfgTapeLen.toNat ∨ s.inOvf = true)) :
    s.construct = { s with tape := [], tapeDraw := none, ptr := 0, pc := 0, steps := 0, outbuf := [], status := .idle } :=
  if_neg h

/-! ## The program and output registers (10_state.md R41 to R44) -/

theorem hostWrite_progLen (s : State) (v : Word) :
    s.hostWrite 32 0x1C v =
      if s.status = .running ∨ s.status = .configRejected then s else { s with progLen := v } := by
  rw [hostWrite_some v rfl]
  by_cases h : s.status = .running <;> by_cases h' : s.status = .configRejected <;>
    simp [HostReg.writable, State.writeReg, h, h']

theorem hostWrite_progAddr (s : State) (v : Word) :
    s.hostWrite 32 0x20 v =
      if s.status = .running ∨ s.status = .configRejected then s else { s with progAddr := v } := by
  rw [hostWrite_some v rfl]
  by_cases h : s.status = .running <;> by_cases h' : s.status = .configRejected <;>
    simp [HostReg.writable, State.writeReg, h, h']

theorem hostWrite_progData (s : State) (v : Word) :
    s.hostWrite 32 0x24 v = if s.status = .running ∨ s.status = .configRejected then s else s.writeProgData v := by
  rw [hostWrite_some v rfl]
  by_cases h : s.status = .running <;> by_cases h' : s.status = .configRejected <;>
    simp [HostReg.writable, State.writeReg, h, h']

theorem writeProgData_eq (s : State) (v : Word) :
    s.writeProgData v =
      { s with prog := if s.progAddr.toNat < s.params.progCap
                 then Memory.write progDefault s.prog s.progAddr.toNat v else s.prog
               progAddr := s.progAddr + 1 } := by
  unfold State.writeProgData; split <;> rfl

theorem hostWrite_outAddr (s : State) (v : Word) :
    s.hostWrite 32 0x2C v = if s.status = .configRejected then s else { s with outAddr := v } := by
  rw [hostWrite_some v rfl]
  by_cases h : s.status = .configRejected <;> simp [HostReg.writable, State.writeReg, h]

/-- The read-only registers. -/
theorem hostWrite_readOnly {s : State} {offset : Nat} (v : Word) (h : offset ∈ [0x04, 0x28, 0x30]) :
    s.hostWrite 32 offset v = s := by
  simp only [List.mem_cons, List.not_mem_nil, or_false] at h
  rcases h with rfl | rfl | rfl <;> rfl

end Sys2Proof.Machine
end

