-- ==== Sys2Proof/Laws/PerInstr.lean ====
section
/-! SUPPORT. The statements made per instruction. -/

namespace Sys2Proof.Laws

/-- No other well-formed instruction has this instruction's word: the encoding is unambiguous (30_encoding.md R82, R83). -/
def DistinctWords.Statement (i : Instr) : Prop :=
  ∀ j : Instr, i.wellFormed = true → j.wellFormed = true → encode j = encode i → j = i

/-- A NOP's word is none of the eight codes. -/
theorem nop_ne_code {ch : Word} (h : (Instr.nop ch).wellFormed = true) {c : Word} (hc : commandCodes.contains c = true) :
    ch ≠ c := by
  rintro rfl
  rw [Instr.wellFormed, hc] at h
  cases h

theorem DistinctWords.inc : DistinctWords.Statement .inc := by
  intro j _ hj h
  cases j <;> first | rfl | exact absurd h (by decide) | exact absurd h (nop_ne_code hj (by decide))

theorem DistinctWords.input : DistinctWords.Statement .input := by
  intro j _ hj h
  cases j <;> first | rfl | exact absurd h (by decide) | exact absurd h (nop_ne_code hj (by decide))

theorem DistinctWords.dec : DistinctWords.Statement .dec := by
  intro j _ hj h
  cases j <;> first | rfl | exact absurd h (by decide) | exact absurd h (nop_ne_code hj (by decide))

theorem DistinctWords.output : DistinctWords.Statement .output := by
  intro j _ hj h
  cases j <;> first | rfl | exact absurd h (by decide) | exact absurd h (nop_ne_code hj (by decide))

theorem DistinctWords.left : DistinctWords.Statement .left := by
  intro j _ hj h
  cases j <;> first | rfl | exact absurd h (by decide) | exact absurd h (nop_ne_code hj (by decide))

theorem DistinctWords.right : DistinctWords.Statement .right := by
  intro j _ hj h
  cases j <;> first | rfl | exact absurd h (by decide) | exact absurd h (nop_ne_code hj (by decide))

theorem DistinctWords.jz : DistinctWords.Statement .jz := by
  intro j _ hj h
  cases j <;> first | rfl | exact absurd h (by decide) | exact absurd h (nop_ne_code hj (by decide))

theorem DistinctWords.jnz : DistinctWords.Statement .jnz := by
  intro j _ hj h
  cases j <;> first | rfl | exact absurd h (by decide) | exact absurd h (nop_ne_code hj (by decide))

theorem DistinctWords.nop (ch : Word) : DistinctWords.Statement (.nop ch) := by
  intro j hi _ h
  cases j <;> first
    | exact absurd h.symm (nop_ne_code hi (by decide))
    | exact congrArg Instr.nop h

end Sys2Proof.Laws
end

