-- ==== Sys2Proof/Tests/Slice0.lean ====
section
/-! SUPPORT. The model's own tests.  Expected values come from the tables of spec/30_encoding.md and from the vectors of
spec/95_test_vectors.md, whose ids stand in the names; the witnesses show that the hypotheses of the statements can be met. -/

namespace Sys2Proof.Tests

open Sys2Proof Sys2Proof.Machine

/-! ## Helpers -/

/-- The outcome is a next state with property `p`. -/
def after (o : Out) (p : State → Bool) : Bool :=
  match o with
  | .next t => p t
  | .fault _ => false
  | .refused _ => false

/-- The outcome is the fault `f`. -/
def faults (o : Out) (f : Fault) : Bool :=
  match o with
  | .next _ => false
  | .fault g => decide (g = f)
  | .refused _ => false

theorem after_next {o : Out} {p : State → Bool} (h : after o p = true) : ∃ t, o = .next t ∧ p t = true := by
  cases o with
  | next t => exact ⟨t, rfl, h⟩
  | fault f => cases h
  | refused r => cases h

theorem faults_eq {o : Out} {f : Fault} (h : faults o f = true) : o = .fault f := by
  cases o with
  | next t => cases h
  | fault g => exact congrArg _ (of_decide_eq_true h)
  | refused r => cases h

/-- Small parameters for the tests. -/
def smallParams : Config.Params := { tapeCap := 256, progCap := 8, inCap := 2, outCap := some 2, phase := .pre }

/-- A run of the program `ws` on a fresh engine with 256 cells and no budget (the conventions of 95_test_vectors.md). -/
def runOf (ws : List Word) : State :=
  { State.reset with params := smallParams, status := .running, cfgTapeLen := 256, tapeDraw := none,
                     prog := ws.zipIdx.map fun x => (x.2, x.1), progLen := BitVec.ofNat 32 ws.length }

/-- The same with PC and the current cell set. -/
def runAt (ws : List Word) (pc : Word) (v : Byte) : State :=
  { (runOf ws).writeCell 0 v with pc := pc }

/-- A run with a budget. -/
def budgeted (phase : Config.Phase) (m steps : Word) (s : State) : State :=
  { s with params := { s.params with phase := phase }, cfgFlags := 1, cfgMaxSteps := m, steps := steps }

/-- The block in a STATE, with the host's next actions. -/
def hosted (st : Status) (b : List HostAction) : State :=
  { State.reset with params := smallParams, status := st, bus := b,
                     tapeDraw := if st.constructed then none else some 0 }

/-! ## Well-formedness -/

theorem test_nop_of_a_command_code_is_ill_formed : commandCodes.all (fun c => !(Instr.nop c).wellFormed) = true := by decide

theorem test_wellFormed_terms :
    [Instr.inc, .input, .dec, .output, .left, .right, .jz, .jnz, .nop 0x61#32].all Instr.wellFormed = true := by decide

/-! ## Decoding: words written out bit by bit from 30_encoding.md R82 -/

theorem test_decode_inc : decode 0b00000000000000000000000000101011#32 = .inc := by decide
theorem test_decode_in : decode 0b00000000000000000000000000101100#32 = .input := by decide
theorem test_decode_dec : decode 0b00000000000000000000000000101101#32 = .dec := by decide
theorem test_decode_out : decode 0b00000000000000000000000000101110#32 = .output := by decide
theorem test_decode_left : decode 0b00000000000000000000000000111100#32 = .left := by decide
theorem test_decode_right : decode 0b00000000000000000000000000111110#32 = .right := by decide
theorem test_decode_jz : decode 0b00000000000000000000000001011011#32 = .jz := by decide
theorem test_decode_jnz : decode 0b00000000000000000000000001011101#32 = .jnz := by decide

/-- Vector N2 and N3: bits above bit 20, and other characters. -/
theorem test_decode_nop :
    [0x0020002B#32, 0x00000000#32, 0x00000020#32, 0x0000000A#32, 0x000000FF#32, 0x00004E2D#32, 0xFFFFFFFF#32, 0x0000002A#32,
      0x0000005C#32].all (fun w => decide (decode w = .nop w)) = true := by decide

theorem test_decodeTableWord : decodeTableWord 32 0x5B = some .jz ∧ decodeTableWord 0 0x5B = some (.nop 0) ∧
    decodeTableWord 40 0x5B = none := by decide

/-! ## The instructions -/

theorem test_A4_inc_wraps :
    after (exec .inc (runAt [0x2B] 0 0xFF)) (fun t => t.tape == [] && t.pc == 1 && t.steps == 1) = true := by decide

theorem test_A2_inc_has_no_sign : after (exec .inc (runAt [0x2B] 0 0x7F)) (fun t => t.cellAt 0 == 0x80) = true := by decide

theorem test_A6_dec_wraps :
    after (exec .dec (runAt [0x2D] 0 0x00)) (fun t => t.tape == [(0, 0xFF#8)] && t.pc == 1) = true := by decide

theorem test_P7L_left_needs_no_33rd_bit :
    after (exec .left { runOf [0x3C] with cfgTapeLen := 0xFFFFFFFF, ptr := 5 }) (fun t => t.ptr == 4) = true := by decide

theorem test_P4L_left_wraps : after (exec .left (runOf [0x3C])) (fun t => t.ptr == 255) = true := by decide

theorem test_P4R_right_wraps : after (exec .right { runOf [0x3E] with ptr := 255 }) (fun t => t.ptr == 0) = true := by decide

theorem test_P1R_right_on_one_cell :
    after (exec .right { runOf [0x3E] with cfgTapeLen := 1 }) (fun t => t.ptr == 0 && t.pc == 1) = true := by decide

theorem test_I1_in_pops_the_front :
    after (exec .input { runAt [0x2C] 0 7 with inq := [0x61, 0x62] })
      (fun t => t.cellAt 0 == 0x61 && t.inq == [0x62]) = true := by decide

theorem test_I2_in_of_an_empty_queue :
    after (exec .input (runAt [0x2C] 0 0x55)) (fun t => t.tape == [] && t.inq == []) = true := by decide

theorem test_O2_out_appends :
    after (exec .output { runOf [0x2E] with outbuf := [0x41] }) (fun t => t.outbuf == [0x41, 0x00]) = true := by decide

theorem test_O3_out_of_a_full_buffer :
    faults (exec .output { runOf [0x2E] with outbuf := [1, 2] }) .outputHold = true := by decide

theorem test_B3_jz_skips_a_nest :
    after (exec .jz (runAt [0x5B, 0x5B, 0x5D, 0x5D] 0 0)) (fun t => t.pc == 4 && t.steps == 1) = true := by decide

theorem test_B5_jz_without_a_match :
    after (exec .jz (runAt [0x5B, 0x5B, 0x5D] 0 0)) (fun t => t.status == .errUnmatchedFwd) = true := by decide

theorem test_B12_jnz_goes_back_over_a_nest :
    after (exec .jnz (runAt [0x5B, 0x5B, 0x5D, 0x5D] 3 1)) (fun t => t.pc == 1 && t.steps == 1) = true := by decide

theorem test_B11_jnz_without_a_match :
    after (exec .jnz (runAt [0x5B, 0x5D, 0x5D] 2 1)) (fun t => t.status == .errUnmatchedBwd) = true := by decide

theorem test_N2_nop :
    after (exec (decode 0x0020002B) (runOf [0x0020002B]))
      (fun t => decide (t = { runOf [0x0020002B] with pc := 1, steps := 1 })) = true := by decide

/-- Vector F1, three clocks after the start. -/
theorem test_F1_fsm :
    after (fsmRun 3 (fsmStart .fwd (runAt [0x5B, 0x5B, 0x5D, 0x5D] 0 0)))
      (fun t => t.scanDir == .idle && t.scanPos == 3 && t.depth == 0 && t.pc == 3) = true := by decide

/-! ## The dispatch loop -/

theorem test_X2_termination_is_tested_before_the_budget :
    after (step (budgeted .pre 0 0 (runOf []))) (fun t => t.status == .doneOk && t.steps == 0) = true := by decide

theorem test_X3_pc_beyond_the_program :
    after (step (runAt [0x2B, 0x2B, 0x2B] 5 0)) (fun t => t.status == .doneOk && t.pc == 5) = true := by decide

theorem test_X4_pre_limit_of_zero :
    after (step (budgeted .pre 0 0 (runOf [0x2B])))
      (fun t => t.status == .errStepLimit && t.tape == [] && t.pc == 0 && t.steps == 0) = true := by decide

theorem test_X5_post_limit_of_zero :
    after (step (budgeted .post 0 0 (runOf [0x2B]))) (fun t => t.status == .running && t.steps == 1) = true := by decide

theorem test_X7_steps_wrap :
    after (step { runOf [0x2B] with steps := 0xFFFFFFFF }) (fun t => t.status == .running && t.steps == 0) = true := by
  decide

theorem test_X8_limit_wins_under_pre :
    after (step (budgeted .pre 3 3 (runOf [0x5B]))) (fun t => t.status == .errStepLimit) = true := by decide

theorem test_X9_bracket_wins_under_post :
    after (step (budgeted .post 3 2 (runOf [0x5B]))) (fun t => t.status == .errUnmatchedFwd) = true := by decide

/-- W5's last step under POST. -/
theorem test_W5_post_limit :
    after (step (budgeted .post 10 9 (runAt [0x2B, 0x5B, 0x5D] 2 1)))
      (fun t => t.status == .errStepLimit && t.pc == 2 && t.steps == 10 && t.outbuf == []) = true := by decide

/-! ## The register bank -/

/-- 10_state.md R31: STATUS after a rejected COMMIT reads 7. -/
theorem test_status_register :
    after (step (hosted .configRejected [.read 32 0x04])) (fun t => t.readData == 7) = true := by decide

/-- 10_state.md R37: the reserved bits of CFG_FLAGS are not stored. -/
theorem test_cfgFlags_reserved_bits :
    after (step (hosted .config [.write 32 0x0C 0xFFFFFFFD])) (fun t => t.cfgFlags == 1) = true := by decide

/-- 10_state.md R40: a push into a full queue is lost and recorded. -/
theorem test_inPush_overflow :
    after (step { hosted .config [.write 32 0x14 0x63] with inq := [0x61, 0x62] })
      (fun t => t.inq == [0x61, 0x62] && t.inOvf) = true := by decide

/-- 10_state.md R41: a write at PROG_CAP changes no word and still moves PROG_ADDR. -/
theorem test_progData_beyond_the_capacity :
    after (step { hosted .idle [.write 32 0x24 0x2B] with progAddr := 8 })
      (fun t => t.prog == [] && t.progAddr == 9) = true := by decide

/-- 70_reset_and_hazards.md R191: a tape longer than TAPE_CAP is refused. -/
theorem test_commit_of_a_long_tape :
    after (step { hosted .config [.write 32 0x18 1] with cfgTapeLen := 257 })
      (fun t => t.status == .configRejected) = true := by decide

/-- 10_state.md R35: SOFT_RESET wins over START. -/
theorem test_ctrl_with_both_bits :
    after (step { hosted .idle [.write 32 0x00 3] with inq := [0x61] })
      (fun t => t.status == .config && t.inq == []) = true := by decide

/-- 10_state.md R44. -/
theorem test_outData :
    after (step { hosted .doneOk [.read 32 0x30] with outbuf := [0x48, 0x69], outAddr := 1 })
      (fun t => t.readData == 0x69) = true := by decide

/-- 20_memory.md R64: another width is ignored. -/
theorem test_narrow_access :
    after (step { hosted .config [.write 8 0x08 5] with readData := 1 }) (fun t => t.cfgTapeLen == 0) = true := by decide

/-- 10_state.md R46, U7: after a hardware reset every tape cell holds a freshly drawn value. -/
theorem test_reset_draws_the_tape (a : Nat) :
    State.reset.cellAt a = Config.freeCell 0 a ∧ State.reset.hardReset.cellAt a = Config.freeCell 1 a := ⟨rfl, rfl⟩

/-- 10_state.md R34: a write of a read-only register has no effect. -/
theorem test_write_of_status :
    after (step (hosted .idle [.write 32 0x04 7])) (fun t => decide (t = hosted .idle [])) = true := by decide

/-! ## The placed word -/

theorem test_placed_word_runs_from_reset :
    [0x2B, 0x2C, 0x2D, 0x2E, 0x3C, 0x3E, 0x5D, 0x61].all (fun w =>
      after (step (State.reset.withFetchWord 32 w)) (fun t => t.pc == 1 && t.steps == 1)) = true := by decide

theorem test_placed_jz_raises_from_reset :
    after (step (State.reset.withFetchWord 32 0x5B)) (fun t => t.status == .errUnmatchedFwd) = true := by decide

/-! ## Witnesses: the hypotheses of the statements, met together -/

/-- A written program with a nest, at the outer `[`, at the inner `]`, and its other places. -/
def nest (pc : Word) (v : Byte) : State := runAt [0x5B, 0x5B, 0x5D, 0x5D] pc v

/-- A program with an unmatched `]` at 0 and an unmatched `[` at 1. -/
def unmatched (pc : Word) (v : Byte) : State := runAt [0x5D, 0x5B] pc v

/-- A program whose word 1 the host has not written. -/
def holed (pc : Word) (v : Byte) : State :=
  { (runOf [0x5B, 0x5B, 0x5D]).writeCell 0 v with prog := [(0, 0x5B#32), (2, 0x5D#32)], pc := pc }

theorem witness_DecoderComparesTheWholeWord :
    (0x10002B#32 : Word) ∉ [0x2B#32, 0x2C#32, 0x2D#32, 0x2E#32, 0x3C#32, 0x3E#32, 0x5B#32, 0x5D#32] := by decide

theorem witness_DecodeAndEncodeAreInverse : (Instr.nop 0xFFFFFFFF#32).wellFormed = true ∧ Instr.jnz.wellFormed = true := by
  decide

/-- A program as long as program memory. -/
theorem witness_LoadedProgramDecodesToItsInstructions :
    let is : List Instr := [.inc, .nop 0x61, .jz, .dec, .jnz, .output, .input, .left]
    let s := hosted .idle (loadActions (is.map encode))
    (∀ i ∈ is, i.wellFormed = true) ∧ is.length ≤ s.params.progCap ∧ is.length < 2 ^ 32 ∧ s.status ≠ .running ∧
      s.status ≠ .configRejected ∧ s.bus = loadActions (is.map encode) := by decide

/-- For INC, DEC, IN and OUT: the first and the last cell of the tape. -/
theorem witness_cellReady :
    (runOf [0x2B]).cellReady ∧ ({ runOf [0x2B] with ptr := 255 } : State).cellReady := by decide

/-- For LEFT and RIGHT: both ends of a tape of the largest length, and a tape of one cell. -/
theorem witness_pointer_on_the_tape :
    (0 : Word) < 0xFFFFFFFF ∧ (0xFFFFFFFE : Word) < 0xFFFFFFFF ∧ (0 : Word) < 1 := by decide

theorem witness_OutAppendsTheCurrentCellOrIsStuck :
    (let s : State := { runOf [0x2E] with outbuf := [1] };
      s.cellReady ∧ s.params.outCap ≠ some s.outbuf.length) ∧
    (let s : State := { runOf [0x2E] with outbuf := [1, 2] };
      s.cellReady ∧ s.params.outCap = some s.outbuf.length) := by decide

theorem witness_JzFallsThroughOrJumps :
    (let s := nest 0 1;
      s.cellReady ∧ s.pc < s.progLen ∧ s.programWritten ∧ s.cellAt s.ptr.toNat ≠ 0) ∧
    (let s := nest 0 0;
      s.cellReady ∧ s.pc < s.progLen ∧ s.programWritten ∧ s.cellAt s.ptr.toNat = 0 ∧ s.forwardMatch s.pc.toNat 3) := by
  decide

/-- The `[` is the last word of the program. -/
theorem witness_JzRaises :
    let s := unmatched 1 0
    s.cellReady ∧ s.pc < s.progLen ∧ s.programWritten ∧ s.cellAt s.ptr.toNat = 0 ∧ ∀ j, ¬ s.forwardMatch s.pc.toNat j :=
  ⟨by decide, by decide, by decide, by decide, fun j ⟨h1, h2, _⟩ => Nat.lt_irrefl _ (Nat.lt_of_le_of_lt h1 h2)⟩

theorem witness_JnzFallsThroughOrJumps :
    (let s := nest 3 0;
      s.cellReady ∧ s.pc < s.progLen ∧ s.programWritten ∧ s.cellAt s.ptr.toNat = 0) ∧
    (let s := nest 3 1;
      s.cellReady ∧ s.pc < s.progLen ∧ s.programWritten ∧ s.cellAt s.ptr.toNat ≠ 0 ∧ s.backwardMatch s.pc.toNat 0) := by
  decide

/-- The `]` is the first word of the program. -/
theorem witness_JnzRaises :
    let s := unmatched 0 1
    s.cellReady ∧ s.pc < s.progLen ∧ s.programWritten ∧ s.cellAt s.ptr.toNat ≠ 0 ∧ ∀ i, ¬ s.backwardMatch s.pc.toNat i :=
  ⟨by decide, by decide, by decide, by decide, fun _ h => Nat.not_lt_zero _ h.1⟩

/-- A plain advance and a jump in each direction. -/
theorem witness_EveryInstructionThatDoesNotRaiseAdvances :
    [(Instr.inc, nest 0 0), (.jz, nest 0 0), (.jnz, nest 3 1)].all
      (fun x => x.2.status == .running && after (exec x.1 x.2) (fun t => t.status == .running)) = true := by decide

theorem witness_StoringInstructionsWriteOneCell :
    [Instr.inc, .dec, .input].all (fun i => after (exec i (nest 0 0)) fun _ => true) = true := by decide

theorem witness_OtherInstructionsWriteNoCell :
    [(Instr.left, nest 0 0), (.right, nest 0 0), (.output, nest 0 0), (.jz, nest 0 0), (.jz, unmatched 1 0),
      (.jnz, unmatched 0 1), (.nop 0x61, nest 0 0)].all
      (fun x => x.2.status == .running && after (exec x.1 x.2) fun _ => true) = true := by decide

/-- Each of the named reasons. -/
theorem witness_InstructionsStopOnlyForTheNamedReasons :
    (faults (exec .output { nest 0 0 with outbuf := [1, 2] }) .outputHold &&
      faults (exec .jz (holed 0 0)) (.unwrittenWord 1) && faults (exec .jnz (holed 2 1)) (.unwrittenWord 1) &&
      faults (exec .inc { nest 0 0 with ptr := 256 }) .cellOutsideTape &&
      faults (exec .inc State.reset) .tapeUnspecified) = true := by decide

/-- The word just after the `[`. -/
theorem witness_ScanOfAnUnwrittenWordFaults_forward :
    let s := holed 0 0
    s.cellReady ∧ s.progAt 1 = none ∧ s.cellAt s.ptr.toNat = 0 ∧ s.pc.toNat < 1 ∧ 1 < s.progLen.toNat ∧
      ∀ j < 1, s.pc.toNat < j → s.progAt j ≠ none ∧ ¬ s.forwardMatch s.pc.toNat j :=
  ⟨by decide, by decide, by decide, by decide, by decide, fun _ h1 h2 => absurd h1 (Nat.not_lt.2 h2)⟩

/-- The word just before the `]`. -/
theorem witness_ScanOfAnUnwrittenWordFaults_backward :
    let s := holed 2 1
    s.cellReady ∧ s.progAt 1 = none ∧ s.cellAt s.ptr.toNat ≠ 0 ∧ 1 < s.pc.toNat ∧
      ∀ j < s.pc.toNat, 1 < j → s.progAt j ≠ none ∧ ¬ s.backwardMatch s.pc.toNat j :=
  ⟨by decide, by decide, by decide, by decide, fun _ h1 h2 => absurd h1 (Nat.not_lt.2 h2)⟩

/-- For the laws of the memories: a canonical tape of a constructed engine, one of an engine after reset, and a canonical
program. -/
theorem witness_MemoriesReadBackAndStayCanonical :
    Memory.wf (runAt [] 0 1).tapeDefault (runAt [] 0 1).tape ∧ Memory.wf State.reset.tapeDefault State.reset.tape ∧
      Memory.wf progDefault (nest 0 0).prog := ⟨by decide, Memory.wf_nil, by decide⟩

/-- The first step of a run, alone and after a `tick`; and a step that reaches the budget under POST. -/
theorem witness_StepRunsTheInstructionAtPc :
    (let s := nest 0 0;
      s.status = .running ∧ s.pc < s.progLen ∧ Instr.jz.wellFormed = true ∧ s.progAt s.pc.toNat = some (encode .jz) ∧
        ¬ (s.params.phase = .pre ∧ s.budgetEn = true ∧ s.steps = s.cfgMaxSteps) ∧ s.bus = [] ∧
        after (exec .jz s) (fun t => decide (¬ (t.status = .running ∧ t.params.phase = .post ∧ t.budgetEn = true ∧
          t.steps = t.cfgMaxSteps))) = true) ∧
    (let s := budgeted .post 1 0 { nest 0 0 with bus := [.tick, .read 32 4] };
      s.status = .running ∧ s.pc < s.progLen ∧ s.progAt s.pc.toNat = some (encode .jz) ∧
        ¬ (s.params.phase = .pre ∧ s.budgetEn = true ∧ s.steps = s.cfgMaxSteps) ∧ s.bus = .tick :: [.read 32 4] ∧
        after (exec .jz s) (fun t => decide (t.status = .running ∧ t.params.phase = .post ∧ t.budgetEn = true ∧
          t.steps = t.cfgMaxSteps)) = true) ∧
    (let s := holed 0 0;
      s.status = .running ∧ s.pc < s.progLen ∧ s.progAt s.pc.toNat = some (encode .jz) ∧ s.bus = [] ∧
        ¬ (s.params.phase = .pre ∧ s.budgetEn = true ∧ s.steps = s.cfgMaxSteps) ∧
        faults (exec .jz s) (.unwrittenWord 1) = true) := by decide

/-- PC at PROG_LEN and above it. -/
theorem witness_RunEndsWhenPcReachesTheProgramLength :
    [nest 4 0, nest 5 0].all (fun s => decide (s.blockRuns ∧ s.progLen ≤ s.pc)) = true := by decide

/-- The block moves from the state itself, and from the state with a pending `tick` taken. -/
theorem witness_blockRunsFrom :
    (nest 4 0).blockRunsFrom (nest 4 0) ∧
      ({ nest 4 0 with bus := [.tick, .read 32 4] } : State).blockRunsFrom { nest 4 0 with bus := [.read 32 4] } :=
  ⟨⟨rfl, .inl ⟨rfl, rfl⟩⟩, rfl, .inr ⟨_, rfl, rfl⟩⟩

theorem witness_StepLimitFiresExactlyAtTheBudget :
    (let s := budgeted .pre 3 3 (nest 0 0);
      s.blockRuns ∧ s.pc < s.progLen ∧ s.params.phase = .pre ∧ s.budgetEn = true ∧ s.steps = s.cfgMaxSteps ∧
        after (step s) (fun t => t.status == .errStepLimit) = true) ∧
    (let s := budgeted .post 3 2 (nest 0 0);
      s.blockRuns ∧ s.pc < s.progLen ∧ s.params.phase = .post ∧ s.progAt s.pc.toNat = some 0x5B#32 ∧
        after (exec (decode 0x5B) s) (fun t => t.status == .running && t.budgetEn && t.steps == t.cfgMaxSteps) = true ∧
        after (step s) (fun t => t.status == .errStepLimit) = true) := by decide

theorem witness_StepLimitWinsUnderPreAndBracketErrorUnderPost :
    (let s := budgeted .pre 3 3 (unmatched 1 0);
      s.blockRuns ∧ s.pc < s.progLen ∧ s.progAt s.pc.toNat = some 0x5B#32 ∧ s.budgetEn = true ∧ s.params.phase = .pre ∧
        s.steps = s.cfgMaxSteps ∧ after (exec (decode 0x5B) s) (fun t => t.status == .errUnmatchedFwd) = true) ∧
    (let s := budgeted .post 3 2 (unmatched 0 1);
      s.blockRuns ∧ s.pc < s.progLen ∧ s.progAt s.pc.toNat = some 0x5D#32 ∧ s.budgetEn = true ∧ s.params.phase = .post ∧
        s.steps + 1 = s.cfgMaxSteps ∧ after (exec (decode 0x5D) s) (fun t => t.status == .errUnmatchedBwd) = true) := by
  decide

theorem witness_AbortDiscardsOutputAndKeepsTheEngine :
    [(budgeted .pre 3 3 (nest 0 0), Status.errStepLimit), (budgeted .post 3 2 (nest 0 0), .errStepLimit),
      (unmatched 1 0, .errUnmatchedFwd), (unmatched 0 1, .errUnmatchedBwd)].all
      (fun x => decide x.1.blockRuns && after (step x.1) (fun t => t.status == x.2)) = true := by decide

theorem witness_OnlyBracketsRaiseBracketErrors :
    [(Instr.inc, nest 0 0), (.jz, unmatched 1 0), (.jnz, unmatched 0 1)].all
      (fun x => x.2.status == .running && after (exec x.1 x.2) fun _ => true) = true := by decide

theorem witness_FetchOfAnUnwrittenWordFaults :
    let s := holed 1 0
    s.blockRuns ∧ s.pc < s.progLen ∧ ¬ (s.params.phase = .pre ∧ s.budgetEn = true ∧ s.steps = s.cfgMaxSteps) ∧
      s.progAt s.pc.toNat = none := by decide

theorem witness_BlockKeepsItsStateBetweenRuns :
    (hosted .doneOk []).status ≠ .running ∧ (hosted .doneOk []).bus = [] ∧ (hosted .config [.tick]).status ≠ .running ∧
      (hosted .config [.tick]).bus = .tick :: [] := by decide

/-- A run that meets every hypothesis about budgets. -/
def budgetRun : State := budgeted .pre 2 1 { nest 0 1 with outbuf := [7] }

theorem budgetRun_invariant : Invariant budgetRun where
  params := by decide
  tape := by decide
  tapeInside := by decide
  prog := by decide
  progInside := by decide
  engine := by decide
  fresh := by decide
  drawn := by decide
  pc := by decide
  length := by decide
  inq := by decide
  outbuf := by decide
  noOutput := by decide
  scan := by decide
  budget := by decide
  output := by decide

theorem witness_RunEndsWithinItsBudget :
    Invariant budgetRun ∧ budgetRun.blockRuns ∧ budgetRun.params.phase = .pre ∧ budgetRun.budgetEn = true ∧
      budgetRun.programWritten ∧ budgetRun.outCapSuffices := ⟨budgetRun_invariant, by decide⟩

theorem witness_OutputHoldIsUnreachableWithTheRequiredCapacity :
    Invariant budgetRun ∧ budgetRun.params.phase = .pre ∧ budgetRun.budgetEn = true ∧ budgetRun.outCapSuffices :=
  ⟨budgetRun_invariant, by decide⟩

/-- The invariant holds where a step is an output hold, and after reset with an unbounded output. -/
theorem witness_ReachableStepsStopOnlyForTheTwoNamedReasons :
    (Invariant { runOf [0x2E] with outbuf := [1, 2] } ∧
      faults (step { runOf [0x2E] with outbuf := [1, 2] }) .outputHold = true) ∧
    (Invariant { budgetRun with params := { budgetRun.params with outCap := none } } ∧
      ({ budgetRun with params := { budgetRun.params with outCap := none } } : State).programWritten) :=
  ⟨⟨by constructor <;> decide, by decide⟩, ⟨by constructor <;> decide, by decide⟩⟩

theorem witness_EveryStepKeepsTheInvariant : Invariant budgetRun ∧ ∃ t, step budgetRun = .next t ∧ t.pc = 1 := by
  obtain ⟨t, h, hp⟩ := after_next (o := step budgetRun) (p := fun t => t.pc == 1) (by decide)
  exact ⟨budgetRun_invariant, t, h, beq_iff_eq.1 hp⟩

theorem witness_ResetMeetsTheInvariant : Config.reference.legal ∧ smallParams.legal := by decide

theorem witness_ProgramIsFixedDuringARun :
    let s : State := { nest 0 0 with bus := [.write 32 0x24 0x2B] }
    s.status = .running ∧ after (step s) (fun t => t.status != .config) = true := by decide

theorem witness_ConfigurationIsReadOnlyAfterCommit :
    let s := hosted .idle [.write 32 0x08 5]
    s.status ≠ .config ∧ after (step s) (fun t => t.status != .config) = true := by decide

theorem witness_InputQueueIsNeverRefilled :
    let s : State := { hosted .idle [.write 32 0x14 5] with inq := [1] }
    s.status.constructed = true ∧ after (step s) (fun t => t.status != .config) = true := by decide

/-- An IN, an OUT and an instruction that transfers nothing. -/
theorem witness_AtMostOneTransferPerStep :
    [0x2C, 0x2E, 0x2B].all (fun w => (runOf [w]).status == .running &&
      after (step (runOf [w])) (fun t => t.status == .running)) = true := by decide

theorem witness_ScanRegistersAreHidden :
    after (step (nest 0 0)) (fun _ => true) = true ∧ faults (step (holed 0 0)) (.unwrittenWord 1) = true := by decide

theorem witness_HostCannotTouchTheEngine :
    let s := hosted .idle [.write 32 0x24 0x2B]
    s.bus = .write 32 0x24 0x2B :: [] ∧ HostAction.write 32 0x24 0x2B ≠ .tick ∧
      HostAction.write 32 0x24 0x2B ≠ .hardReset ∧ (∀ v, HostAction.write 32 0x24 0x2B ≠ .write 32 0x00 v) ∧
      ∀ v, HostAction.write 32 0x24 0x2B ≠ .write 32 0x18 v :=
  ⟨rfl, by decide, by decide, fun _ h => by simp at h, fun _ h => by simp at h⟩

/-- The outer pair and the inner pair, and what the scans give for them. -/
theorem witness_BracketMatchingIsSymmetric :
    [(0, 3), (1, 2)].all (fun x =>
      let s := nest 0 0
      decide (x.2 < s.progLen.toNat ∧ s.instrAt x.1 = some .jz ∧ s.instrAt x.2 = some .jnz ∧
        scanForward s.prog (s.progLen.toNat - (x.1 + 1)) x.1 1 = ⟨.found, x.2, 0⟩)) = true := by decide

theorem witness_ScansFindTheNestingMatch :
    (nest 0 0).programWritten ∧ 3 < (nest 0 0).progLen.toNat ∧ (nest 0 0).forwardMatch 1 2 ∧
      (nest 0 0).backwardMatch 3 0 := by decide

theorem witness_FsmDoesWhatTheScansDo :
    (nest 0 0).cellReady ∧ (nest 0 0).pc < (nest 0 0).progLen ∧ (nest 3 1).cellReady ∧
      (nest 3 1).pc < (nest 3 1).progLen := by decide

theorem witness_StackPairingGivesTheMatchesOfTheScans :
    (nest 0 0).programWritten ∧ 0 < (nest 0 0).progLen.toNat ∧ (nest 0 0).instrAt 0 = some .jz ∧
      3 < (nest 0 0).progLen.toNat ∧ (nest 0 0).instrAt 3 = some .jnz ∧ (0, 3) ∈ (nest 0 0).jumpTable := by decide

/-- A hardware reset during a run, and a SOFT_RESET after one. -/
theorem witness_ResetLeavesTheStatedValues :
    (({ nest 0 0 with bus := [.hardReset] } : State).bus = .hardReset :: [] ∧
      after (step { nest 0 0 with bus := [.hardReset] }) (fun _ => true) = true) ∧
    ((hosted .doneOk [.write 32 0 2]).bus = .write 32 0x00 2 :: [] ∧ (2 : Word).getLsbD 1 = true ∧
      (hosted .doneOk [.write 32 0 2]).status ≠ .running ∧
      after (step (hosted .doneOk [.write 32 0 2])) (fun _ => true) = true) := by decide

/-- A refusal for each of the three reasons, a construction with the longest tape, and two writes without effect. -/
theorem witness_CommitConstructsOrRejects :
    (let s : State := { hosted .config [.write 32 0x18 1] with cfgTapeLen := 256 };
      s.bus = .write 32 0x18 1 :: [] ∧ s.status = .config ∧ (1 : Word).getLsbD 0 = true ∧
        ¬ (s.cfgTapeLen = 0 ∨ s.params.tapeCap < s.cfgTapeLen.toNat ∨ s.inOvf = true)) ∧
    (hosted .config [.write 32 0x18 1]).cfgTapeLen = 0 ∧
    smallParams.tapeCap < (257 : Word).toNat ∧
    ({ hosted .config [.write 32 0x18 1] with cfgTapeLen := 1, inOvf := true } : State).inOvf = true ∧
    (hosted .idle [.write 32 0x18 1]).status ≠ .config ∧ (0xFFFFFFFE : Word).getLsbD 0 = false := by decide

/-- START with PROG_LEN at PROG_CAP and one above it, and the other cases. -/
theorem witness_CtrlStartsARunOrResets :
    (hosted .idle [.read 32 0]).bus = .read 32 0x00 :: [] ∧ (hosted .idle [.read 32 4]).bus = .read 32 0x04 :: [] ∧
    (hosted .running [.write 32 0 3]).status = .running ∧
    ((2 : Word).getLsbD 1 = true ∧ (hosted .config [.write 32 0 2]).status ≠ .running) ∧
    ((0xFFFFFFFC : Word).getLsbD 1 = false ∧ (0xFFFFFFFC : Word).getLsbD 0 = false) ∧
    (let s : State := { hosted .errStepLimit [.write 32 0 1] with progLen := 8 };
      s.bus = .write 32 0x00 1 :: [] ∧ (1 : Word).getLsbD 1 = false ∧ (1 : Word).getLsbD 0 = true ∧
        s.status ∈ [Status.idle, .doneOk, .errUnmatchedFwd, .errUnmatchedBwd, .errStepLimit] ∧
        s.progLen.toNat ≤ s.params.progCap ∧ s.params.progCap < ({ s with progLen := 9 } : State).progLen.toNat) ∧
    (hosted .config [.write 32 0 1]).status = .config := by decide

theorem witness_HostWritesAreIgnoredDuringARun :
    let s := hosted .running [.write 32 0x2C 1]
    s.status = .running ∧ s.bus = .write 32 0x2C 1 :: [] := by decide

/-- A write without effect, and the two resets. -/
theorem witness_RejectedConfigurationIsLeftOnlyByReset :
    [HostAction.write 32 0x00 1, .write 32 0x00 2, .hardReset, .tick].all (fun a =>
      let s := hosted .configRejected [a]
      decide (s.status = .configRejected ∧ s.bus = a :: []) && after (step s) fun _ => true) = true := by decide

/-- The first and the last offset of the bank, and one above it. -/
theorem witness_RegisterReadsHaveNoSideEffect :
    (hosted .idle [.read 32 0]).bus = .read 32 0x00 :: [] ∧ (hosted .idle [.read 32 0x31]).bus = .read 32 0x31 :: [] ∧
      0x31 % 4 ≠ 0 ∧ 0x30 < 0x34 ∧ 0x30 ∈ [0x04, 0x28, 0x30] ∧ (hosted .idle [.write 16 0x08 1]).bus = .write 16 0x08 1 :: [] ∧ 16 ≠ 32 := by decide

theorem witness_OutLenReadsTheNumberOfOutputBytes :
    let s : State := { hosted .doneOk [.read 32 0x28] with outbuf := [1, 2] }
    s.bus = .read 32 0x28 :: [] ∧ s.status = .doneOk ∧ s.outbuf.length < 2 ^ 32 ∧
      (hosted .running [.read 32 0x28]).status ≠ .doneOk := by decide

/-- The last byte, and the index just after it. -/
theorem witness_HostCollectsTheOutputByteByByte :
    let s : State := { hosted .doneOk [.write 32 0x2C 1, .read 32 0x30] with outbuf := [1, 2] }
    s.bus = [.write 32 0x2C 1, .read 32 0x30] ∧ (1 : Word).toNat < s.outbuf.length ∧ s.status = .doneOk ∧
      s.outbuf.length ≤ (2 : Word).toNat := by decide

/-- The last free place of INQ, a full one, and another STATE. -/
theorem witness_InPushAppendsOneByteInConfig :
    let s : State := { hosted .config [.write 32 0x14 0x161] with inq := [1] }
    s.bus = .write 32 0x14 0x161 :: [] ∧ s.status = .config ∧ s.inq.length < s.params.inCap ∧
      s.params.inCap ≤ ({ s with inq := [1, 2] } : State).inq.length ∧ (hosted .idle []).status ≠ .config := by decide

/-- The last word of program memory, and the two STATEs that forbid the write. -/
theorem witness_ProgDataStoresOneWordAndMovesOn :
    let s : State := { hosted .config [.write 32 0x24 0x2B] with progAddr := 7 }
    s.bus = .write 32 0x24 0x2B :: [] ∧ s.status ≠ .running ∧ s.status ≠ .configRejected ∧
      s.progAddr.toNat < s.params.progCap ∧ (hosted .running []).status = .running ∧
      (hosted .configRejected []).status = .configRejected := by decide

theorem witness_PlainRegistersTakeWhatIsWritten :
    [0x08, 0x0C, 0x10, 0x1C, 0x20, 0x2C].all (fun o =>
      decide ((hosted .config [.write 32 o 5]).bus = .write 32 o 5 :: [])) = true := by decide

/-- The longest tape and the longest input, and each way to be refused. -/
theorem witness_BootSequenceConstructsTheEngine :
    (0 : Word) < 256 ∧ (256 : Word).toNat ≤ smallParams.tapeCap ∧ [(1 : Byte), 2].length ≤ smallParams.inCap ∧
      smallParams.tapeCap < (257 : Word).toNat ∧ smallParams.inCap < [(1 : Byte), 2, 3].length := by decide

theorem witness_RerunAfterSuccessEndsAtOnce :
    let s : State := { hosted .doneOk [.write 32 0x00 1] with pc := 8, progLen := 8 }
    s.status = .doneOk ∧ s.progLen ≤ s.pc ∧ s.progLen.toNat ≤ s.params.progCap ∧ s.bus = [.write 32 0x00 1] := by decide

theorem witness_PlacedWordIsRunByTheNextStep : 0 ≤ 32 ∧ 32 ≤ 32 := by decide

end Sys2Proof.Tests
end

section
/-! PROOF. How an instruction can stop (10_state.md R21, R25, 43_io.md R146): the inversion lemma of `exec` for faults, as
`exec_next` is for next states, and that no instruction is refused. -/

namespace Sys2Proof.Machine

/-! ## The instructions that use the current cell -/

/-- The instructions whose meaning reads or writes the current cell. -/
abbrev UsesCell (i : Instr) : Prop := i ∈ [Instr.inc, .dec, .input, .output, .jz, .jnz]

/-- Each of them is a use of the current cell, followed by what it does with the value. -/
theorem exec_eq_withCell {i : Instr} (hi : UsesCell i) (s : State) : ∃ k, exec i s = withCell s k := by
  simp only [UsesCell, List.mem_cons, List.not_mem_nil, or_false] at hi
  rcases hi with rfl | rfl | rfl | rfl | rfl | rfl
  · exact ⟨_, exec_inc s⟩
  · exact ⟨_, exec_dec s⟩
  · exact ⟨_, exec_input s⟩
  · exact ⟨_, exec_output s⟩
  · exact ⟨_, exec_jz s⟩
  · exact ⟨_, exec_jnz s⟩

theorem withCell_unconstructed {s : State} (hc : s.status.constructed = false) (k : Byte → Out) :
    withCell s k = .fault .tapeUnspecified := by simp [withCell, hc]

theorem withCell_offTape {s : State} (hc : s.status.constructed = true) (hp : s.cfgTapeLen ≤ s.ptr) (k : Byte → Out) :
    withCell s k = .fault .cellOutsideTape := by simp [withCell, hc, hp]

/-! ## No refusal -/

theorem withCell_ne_refused {s : State} {k : Byte → Out} {r : Refusal} (hk : k s.cell ≠ .refused r) :
    withCell s k ≠ .refused r := by
  rcases withCell_cases s k with ⟨-, h⟩ | ⟨-, -, h⟩ | ⟨-, -, h⟩
  · rw [h]; nofun
  · rw [h]; nofun
  · rwa [h]

theorem finishScan_ne_refused (e : RunError) (c : Scan) (s : State) (r : Refusal) : finishScan e c s ≠ .refused r := by
  unfold finishScan
  split <;> nofun

theorem exec_ne_refused (i : Instr) (s : State) (r : Refusal) : exec i s ≠ .refused r := by
  cases i with
  | inc => rw [exec_inc]; exact withCell_ne_refused nofun
  | dec => rw [exec_dec]; exact withCell_ne_refused nofun
  | input => rw [exec_input]; exact withCell_ne_refused nofun
  | left => rw [exec_left]; nofun
  | right => rw [exec_right]; nofun
  | nop => rw [exec_nop]; nofun
  | output =>
    rw [exec_output]
    refine withCell_ne_refused ?_
    split <;> nofun
  | jz =>
    rw [exec_jz]
    refine withCell_ne_refused ?_
    split
    · exact finishScan_ne_refused _ _ _ _
    · nofun
  | jnz =>
    rw [exec_jnz]
    refine withCell_ne_refused ?_
    split
    · nofun
    · exact finishScan_ne_refused _ _ _ _

/-! ## How an instruction can fault -/

/-- Why an instruction that faults stopped there. -/
inductive Stopped (i : Instr) (s : State) : Fault → Prop where
  | held (hi : i = .output) (hf : s.params.outCap = some s.outbuf.length) : Stopped i s .outputHold
  | unwrittenAhead (k : Nat) (hi : i = .jz) (hz : s.cell = 0) (hpc : s.pc.toNat < k) (hk : k < s.progLen.toNat)
      (hw : s.progAt k = none) : Stopped i s (.unwrittenWord k)
  | unwrittenBehind (k : Nat) (hi : i = .jnz) (hz : s.cell ≠ 0) (hk : k < s.pc.toNat) (hw : s.progAt k = none) :
      Stopped i s (.unwrittenWord k)
  | offTape (hi : UsesCell i) (hc : s.status.constructed = true) (hp : s.cfgTapeLen ≤ s.ptr) :
      Stopped i s .cellOutsideTape
  | unconstructed (hi : UsesCell i) (hc : s.status.constructed = false) : Stopped i s .tapeUnspecified

/-- A use of the current cell faults because the cell is not there, or in what is done with its value. -/
theorem stopped_of_withCell {i : Instr} {s : State} {k : Byte → Out} {f : Fault} (he : exec i s = withCell s k)
    (hi : UsesCell i) (h : exec i s = .fault f) (hk : k s.cell = .fault f → Stopped i s f) : Stopped i s f := by
  rw [he] at h
  rcases withCell_cases s k with ⟨hc, h'⟩ | ⟨hc, hp, h'⟩ | ⟨-, -, h'⟩
  · cases h'.symm.trans h
    exact .unconstructed hi hc
  · cases h'.symm.trans h
    exact .offTape hi hc hp
  · exact hk (h'.symm.trans h)

/-- A forward scan faults only at an unwritten word between PC and the end of the program (10_state.md R25). -/
theorem stopped_of_jzScan {s : State} {f : Fault} (hz : s.cell = 0)
    (h : finishScan .unmatchedForward s.forwardScan s = .fault f) : Stopped .jz s f := by
  rcases jzScan_cases s with ⟨j, -, -, -, -, h'⟩ | ⟨r, -, -, h'⟩ | ⟨k, hpc, hk, hw, h'⟩
  · cases h'.symm.trans h
  · cases h'.symm.trans h
  · cases h'.symm.trans h
    exact .unwrittenAhead k rfl hz hpc hk hw

/-- A backward scan faults only at an unwritten word before PC (R25). -/
theorem stopped_of_jnzScan {s : State} {f : Fault} (hz : s.cell ≠ 0)
    (h : finishScan .unmatchedBackward s.backwardScan s = .fault f) : Stopped .jnz s f := by
  rcases jnzScan_cases s with ⟨j, -, -, -, h'⟩ | ⟨r, -, -, h'⟩ | ⟨k, hk, hw, h'⟩
  · cases h'.symm.trans h
  · cases h'.symm.trans h
  · cases h'.symm.trans h
    exact .unwrittenBehind k rfl hz hk hw

/-- Everything that can stop an instruction. -/
theorem exec_fault {i : Instr} {s : State} {f : Fault} (h : exec i s = .fault f) : Stopped i s f := by
  cases i with
  | inc => exact stopped_of_withCell (exec_inc s) (by decide) h nofun
  | dec => exact stopped_of_withCell (exec_dec s) (by decide) h nofun
  | input => exact stopped_of_withCell (exec_input s) (by decide) h nofun
  | left => rw [exec_left] at h; cases h
  | right => rw [exec_right] at h; cases h
  | nop => rw [exec_nop] at h; cases h
  | output =>
    refine stopped_of_withCell (exec_output s) (by decide) h fun h => ?_
    split at h
    · rename_i hf
      cases h
      exact .held rfl (by simpa [State.outputFull] using hf)
    · cases h
  | jz =>
    refine stopped_of_withCell (exec_jz s) (by decide) h fun h => ?_
    split at h
    · rename_i hz
      exact stopped_of_jzScan ((zeroCond_iff _).1 hz) h
    · cases h
  | jnz =>
    refine stopped_of_withCell (exec_jnz s) (by decide) h fun h => ?_
    split at h
    · cases h
    · rename_i hz
      exact stopped_of_jnzScan (fun h0 => hz ((zeroCond_iff _).2 h0)) h

/-- Settles O16: no instruction is refused, `exec_fault` lists the faults, and `exec_eq_withCell` gives the two certain
stops. -/
theorem instructionsStopOnlyForTheNamedReasons : Obligations.InstructionsStopOnlyForTheNamedReasons := by
  intro i s
  refine ⟨exec_ne_refused i s, fun f h => ?_, fun hi => ?_⟩
  · cases exec_fault h with
    | held hi hf => exact .inl ⟨rfl, hi, hf⟩
    | unwrittenAhead k hi hz hpc hk hw => exact .inr (.inl ⟨k, rfl, hw, .inl ⟨hi, hz, hpc, hk⟩⟩)
    | unwrittenBehind k hi hz hk hw => exact .inr (.inl ⟨k, rfl, hw, .inr ⟨hi, hz, hk⟩⟩)
    | offTape hi hc hp => exact .inr (.inr (.inl ⟨rfl, hc, hp⟩))
    | unconstructed hi hc => exact .inr (.inr (.inr ⟨rfl, hc⟩))
  · obtain ⟨k, hk⟩ := exec_eq_withCell hi s
    rw [hk]
    exact ⟨fun hc => withCell_unconstructed hc k, fun hc hp => withCell_offTape hc hp k⟩

end Sys2Proof.Machine
end

section
/-! PROOF. The invariant of the machine (10_state.md R22 to R30, R46, 44_bracket_jump.md R156, 60_exceptions.md R174): every
named operation keeps it where the machine uses it, and so does every step. -/

namespace Sys2Proof.Machine

variable {s t : State}

/-! ## The model's own fields of the host -/

/-- No rule of the invariant speaks of the host's pending actions or of what it last read. -/
theorem Invariant.setHost (hs : Invariant s) (b : List HostAction) (r : Word) :
    Invariant { s with bus := b, readData := r } := { hs with }

/-! ## What an instruction is made of -/

/-- A step may still be counted: under PRE with a budget STEPS is below MAX_STEPS (40_dispatch.md R103). -/
def State.stepLeft (s : State) : Prop := s.params.phase = .pre → s.budgetEn = true → s.steps < s.cfgMaxSteps

/-- That is what the PRE check asks in a state that meets the invariant. -/
theorem Invariant.stepLeft (hs : Invariant s) (hl : s.preLimit = false) : s.stepLeft := fun hph hb => by
  have hle := hs.budget hph hb
  have hne : s.steps ≠ s.cfgMaxSteps := fun he => by simp [(preLimit_iff s).2 ⟨hph, hb, he⟩] at hl
  bv_omega

theorem not_unconstructed (hr : s.status = .running) {p : Prop} (h : s.status.constructed = false) : p := by
  simp [constructed_of_running hr] at h

/-- A change of STATE that neither constructs the engine nor resets it keeps the rule about the tape's draw (R46). -/
theorem Invariant.drawn_of_constructed (hs : Invariant s) {st : Status}
    (h : st.constructed = s.status.constructed) : s.tapeDraw = none ↔ st.constructed = true := h ▸ hs.drawn

theorem Invariant.advance (hs : Invariant s) (hr : s.status = .running) (hp : s.pc.toNat < s.params.progCap)
    (hl : s.stepLeft) : Invariant s.advance :=
  { hs with
    fresh := fun h => not_unconstructed hr h
    pc := by
      have hcap := hs.params.2.1.2
      show (s.pc + 1).toNat ≤ s.params.progCap
      bv_omega
    budget := fun hph hb => by
      have hlt := hl hph hb
      show s.steps + 1 ≤ s.cfgMaxSteps
      bv_omega
    output := fun hph hb => by
      have hlt := hl hph hb
      have hle := hs.output hph hb
      show s.outbuf.length ≤ (s.steps + 1).toNat
      bv_omega }

theorem Invariant.setCell (hs : Invariant s) (hr : s.status = .running) (hp : s.ptr < s.cfgTapeLen) (v : Byte) :
    Invariant (s.setCell v) :=
  { hs with
    tape := Memory.wf_write _ _ hs.tape
    tapeInside := fun c hc => by
      rcases Memory.mem_write hc with rfl | hc
      · exact hp
      · exact hs.tapeInside c hc
    fresh := fun h => not_unconstructed hr h }

theorem Invariant.popInput (hs : Invariant s) : Invariant s.popInput :=
  { hs with inq := (List.tail_sublist s.inq).length_le.trans hs.inq }

theorem Invariant.setPtr (hs : Invariant s) (hr : s.status = .running) {p : Word} (hp : p < s.cfgTapeLen) :
    Invariant { s with ptr := p } :=
  { hs with
    engine := fun h => have ⟨h0, hN, _, hi⟩ := hs.engine h; ⟨h0, hN, hp, hi⟩
    fresh := fun h => not_unconstructed hr h }

/-- A byte needs room in OUTBUF, and under PRE with a budget a step already counted for it (43_io.md R146). -/
theorem Invariant.appendOutput (hs : Invariant s) (hr : s.status = .running)
    (hf : s.params.outCap ≠ some s.outbuf.length)
    (hc : s.params.phase = .pre → s.budgetEn = true → s.outbuf.length < s.steps.toNat) (v : Byte) :
    Invariant (s.appendOutput v) :=
  { hs with
    outbuf := fun c h => by
      have hle := hs.outbuf c h
      have hne : s.outbuf.length ≠ c := fun he => hf (he ▸ h)
      rw [appendOutput_outbuf, List.length_append, List.length_singleton]
      omega
    noOutput := fun h => absurd hr h
    output := fun hph hb => by
      rw [appendOutput_outbuf, List.length_append, List.length_singleton]
      exact hc hph hb }

theorem Invariant.setScan (hs : Invariant s) (r : Scan) : Invariant (s.setScan r) := { hs with scan := rfl }

theorem Invariant.setPc (hs : Invariant s) (hr : s.status = .running) {p : Word} (hp : p.toNat ≤ s.params.progCap) :
    Invariant { s with pc := p } :=
  { hs with
    fresh := fun h => not_unconstructed hr h
    pc := hp }

/-- The end of a run by an error, with PC and STEPS inside their bounds (60_exceptions.md R174). -/
theorem Invariant.abort (hs : Invariant s) (hr : s.status = .running) (e : RunError) {p n : Word} {k : Nat}
    (hp : p.toNat ≤ s.params.progCap) (hn : s.params.phase = .pre → s.budgetEn = true → n ≤ s.cfgMaxSteps) :
    Invariant { s with status := e.status, outbuf := [], pc := p, steps := n, draws := k } :=
  have hc := constructed_of_running hr
  have he : e.status.constructed = true := by cases e <;> rfl
  { hs with
    drawn := hs.drawn_of_constructed (he.trans hc.symm)
    engine := fun _ => hs.engine hc
    fresh := fun h => by simp [he] at h
    pc := hp
    length := fun _ => hs.length hr
    outbuf := fun _ _ => Nat.zero_le _
    noOutput := fun _ _ => rfl
    budget := hn
    output := fun _ _ => Nat.zero_le _ }

theorem Invariant.raise_stepLimit (hs : Invariant s) (hr : s.status = .running) :
    Invariant (s.raise .stepLimitExceeded) := hs.abort hr .stepLimitExceeded hs.pc hs.budget

/-- The free PC and STEPS of a bracket error stay inside the bounds, since the step that raises it may be counted. -/
theorem Invariant.raise_bracket (hs : Invariant s) (hr : s.status = .running) (hl : s.stepLeft) {e : RunError}
    (he : e ≠ .stepLimitExceeded) : Invariant (s.raise e) := by
  rw [Machine.raise_bracket s he]
  refine hs.abort hr e ?_ fun hph hb => ?_
  · exact (BitVec.le_def.1 (drawnPc_le s)).trans (hs.length hr)
  · have hlt := hl hph hb
    rcases drawnSteps_cases s with h | h
    · rw [h]; bv_omega
    · rw [h]; bv_omega

/-! ## One instruction -/

/-- LEFT stays on the ring (10_state.md R22, 42_pointer.md R130). -/
theorem ptrLeft_lt {n p : Word} (hp : p < n) : ptrLeft n p < n := by
  unfold ptrLeft
  split <;> bv_omega

/-- RIGHT stays on the ring (R22, R131). -/
theorem ptrRight_lt {n p : Word} (hp : p < n) : ptrRight n p < n := by
  unfold ptrRight
  split <;> bv_omega

/-- A jump lands inside the program, and the pc advance at most at its end. -/
theorem Invariant.jumpedTo (hs : Invariant s) (hr : s.status = .running) (hl : s.stepLeft) {j : Nat}
    (hj : j < s.params.progCap) : Invariant (jumpedTo j s) := by
  have hcap := hs.params.2.1.2
  have hjn : (BitVec.ofNat 32 j).toNat = j := by rw [BitVec.toNat_ofNat, Nat.mod_eq_of_lt (by omega)]
  exact ((hs.setScan ⟨.found, j, 0⟩).setPc hr (hjn.trans_le hj.le)).advance hr (hjn.trans_lt hj) hl

theorem Invariant.exec (hs : Invariant s) (hr : s.status = .running) (hp : s.pc < s.progLen) (hl : s.stepLeft)
    {i : Instr} (h : exec i s = .next t) : Invariant t := by
  have hlen := hs.length hr
  have hpc : s.pc.toNat < s.params.progCap := by bv_omega
  cases exec_next h with
  | stored v _ hptr => exact (hs.setCell hr hptr v).advance hr hpc hl
  | popped _ hptr => exact (hs.popInput.setCell hr hptr _).advance hr hpc hl
  | moved p hi hpp =>
    obtain ⟨-, -, hptr, -⟩ := hs.engine (constructed_of_running hr)
    refine (hs.setPtr hr ?_).advance hr hpc hl
    rcases hi with rfl | rfl
    · exact hpp.1 rfl ▸ ptrLeft_lt hptr
    · exact hpp.2 rfl ▸ ptrRight_lt hptr
  | appended _ hf =>
    refine (hs.advance hr hpc hl).appendOutput hr hf (fun hph hb => ?_) _
    have hlt := hl hph hb
    have hle := hs.output hph hb
    rw [advance_outbuf, advance_steps]
    bv_omega
  | passed => exact hs.advance hr hpc hl
  | jumped j hi =>
    refine hs.jumpedTo hr hl ?_
    rcases hi with ⟨-, -, -, -, hj, -⟩ | ⟨-, -, -, hj, -⟩
    · omega
    · omega
  | raised r e _ hi =>
    refine (hs.setScan r).raise_bracket hr hl ?_
    rcases hi with ⟨-, -, -, rfl⟩ | ⟨-, -, -, rfl⟩ <;> nofun

/-! ## A step of the block -/

theorem Invariant.finish (hs : Invariant s) (hr : s.status = .running) : Invariant s.finish :=
  have hc := constructed_of_running hr
  { hs with
    drawn := hs.drawn_of_constructed hc.symm
    engine := fun _ => hs.engine hc
    fresh := nofun
    length := nofun
    noOutput := fun _ h => absurd rfl h }

theorem Invariant.blockMoved (hs : Invariant s) (h : BlockMoved s t) : Invariant t := by
  cases h with
  | waited => exact hs
  | finished hr => exact hs.finish hr
  | preLimit hr => exact hs.raise_stepLimit hr
  | executed w _ hr hp hl _ he => exact hs.exec hr hp (hs.stepLeft hl) he
  | postLimit w u hr hp hl _ he hu => exact (hs.exec hr hp (hs.stepLeft hl) he).raise_stepLimit hu

/-! ## What the host does -/

/-- Everything a reset leaves meets the invariant, for any legal parameters and whatever the model's own fields hold. -/
theorem invariant_afterReset {p : Config.Params} (hp : p.legal) (n k : Nat) (b : List HostAction) (r : Word) :
    Invariant { State.reset with params := p, draws := n, tapeDraw := some k, bus := b, readData := r } where
  params := hp
  tape := Memory.wf_nil
  drawn := by simp [State.reset, Status.constructed]
  tapeInside := nofun
  prog := Memory.wf_nil
  progInside := nofun
  engine := nofun
  fresh := fun _ => ⟨rfl, rfl, rfl, rfl⟩
  pc := Nat.zero_le _
  length := nofun
  inq := Nat.zero_le _
  outbuf := fun _ _ => Nat.zero_le _
  noOutput := fun _ _ => rfl
  scan := rfl
  budget := fun _ _ => BitVec.le_refl _
  output := fun _ _ => Nat.zero_le _

theorem Invariant.hardReset (hs : Invariant s) : Invariant s.hardReset := invariant_afterReset hs.params _ _ _ _

theorem constructed_of_startable {st : Status} (h : st.startable = true) : st.constructed = true := by
  revert h
  cases st <;> decide

theorem Invariant.startRun (hs : Invariant s) (h : s.status.startable = true)
    (hl : s.progLen.toNat ≤ s.params.progCap) : Invariant s.startRun :=
  have hc := constructed_of_startable h
  { hs with
    drawn := hs.drawn_of_constructed hc.symm
    engine := fun _ => hs.engine hc
    fresh := nofun
    length := fun _ => hl
    outbuf := fun _ _ => Nat.zero_le _
    noOutput := fun _ _ => rfl
    budget := fun hph hb => by
      show (if s.stepsResetOnRun then 0 else s.steps) ≤ s.cfgMaxSteps
      split
      · exact Nat.zero_le _
      · exact hs.budget hph hb
    output := fun _ _ => Nat.zero_le _ }

/-- In CONFIG nothing has been constructed, so the configuration registers and IN_OVF are free. -/
theorem Invariant.configure (hs : Invariant s) (h : s.status = .config) (n m : Word) (f : BitVec 2) (o : Bool) :
    Invariant { s with cfgTapeLen := n, cfgFlags := f, cfgMaxSteps := m, inOvf := o } :=
  have hu : s.status.constructed = false := by rw [h]; rfl
  have ⟨htape, _, _, hsteps⟩ := hs.fresh hu
  have hout : s.outbuf = [] := hs.noOutput (by rw [h]; nofun) (by rw [h]; nofun)
  { hs with
    tapeInside := by simp [htape]
    engine := fun hc => by simp [hu] at hc
    budget := fun _ _ => by rw [hsteps]; exact Nat.zero_le _
    output := fun _ _ => by simp [hout] }

theorem Invariant.construct (hs : Invariant s) (h : s.status = .config) : Invariant s.construct := by
  have hu : s.status.constructed = false := by rw [h]; rfl
  by_cases hrej : s.cfgTapeLen = 0 ∨ s.params.tapeCap < s.cfgTapeLen.toNat ∨ s.inOvf = true
  · rw [construct_rejected hrej]
    exact
      { hs with
        drawn := hs.drawn_of_constructed hu.symm
        engine := nofun
        fresh := fun _ => hs.fresh hu
        length := nofun
        noOutput := fun _ _ => hs.noOutput (by rw [h]; nofun) (by rw [h]; nofun) }
  · rw [construct_accepted hrej]
    obtain ⟨hne, hcap, hovf⟩ : s.cfgTapeLen ≠ 0 ∧ s.cfgTapeLen.toNat ≤ s.params.tapeCap ∧ s.inOvf = false := by
      simpa using hrej
    have hpos : 0 < s.cfgTapeLen := by bv_omega
    exact
      { hs with
        tape := Memory.wf_nil
        drawn := ⟨fun _ => rfl, fun _ => rfl⟩
        tapeInside := nofun
        engine := fun _ => ⟨hpos, hcap, hpos, hovf⟩
        fresh := nofun
        pc := Nat.zero_le _
        length := nofun
        outbuf := fun _ _ => Nat.zero_le _
        noOutput := fun _ _ => rfl
        budget := fun _ _ => Nat.zero_le _
        output := fun _ _ => Nat.zero_le _ }

theorem Invariant.writeProgData (hs : Invariant s) (v : Word) : Invariant (s.writeProgData v) := by
  rw [writeProgData_eq]
  by_cases hcap : s.progAddr.toNat < s.params.progCap
  · rw [if_pos hcap]
    exact
      { hs with
        prog := Memory.wf_write _ _ hs.prog
        progInside := fun c hc => by
          rcases Memory.mem_write (d := progDefault) hc with rfl | hc
          · exact hcap
          · exact hs.progInside c hc }
  · rw [if_neg hcap]
    exact { hs with }

theorem Invariant.hostWrote (hs : Invariant s) (h : HostWrote s t) : Invariant t := by
  cases h with
  | nothing => exact hs
  | reset => exact hs.hardReset
  | started h hl => exact hs.startRun h hl
  | tapeLen v h => exact hs.configure h v _ _ _
  | flags v h => exact hs.configure h _ _ v _
  | maxSteps v h => exact hs.configure h _ v _ _
  | pushed b _ hl => exact { hs with inq := by simpa using hl }
  | overflow h => exact hs.configure h _ _ _ true
  | committed h => exact hs.construct h
  | progLen v h => exact { hs with length := fun hr => absurd hr h }
  | progAddr => exact { hs with }
  | progData v => exact hs.writeProgData v
  | outAddr => exact { hs with }

/-! ## Every step -/

/-- Settles O32: a step is a move of the block, a host write, a host read or a hardware reset (`step_next`), and each keeps
the invariant. -/
theorem everyStepKeepsTheInvariant : Obligations.EveryStepKeepsTheInvariant := by
  intro s t hs h
  obtain ⟨rest, -, hmove⟩ := step_next h
  have hu : Invariant { s with bus := rest } := hs.setHost rest s.readData
  rcases hmove with hb | hw | ⟨v, rfl⟩ | rfl
  · exact hu.blockMoved hb
  · exact hu.hostWrote hw
  · exact hs.setHost rest v
  · exact hu.hardReset

/-- Settles O33: State.reset is what a reset leaves. -/
theorem resetMeetsTheInvariant : Obligations.ResetMeetsTheInvariant :=
  fun _ b hp => invariant_afterReset hp 1 0 b 0

end Sys2Proof.Machine
end

section
/-! PROOF. The tape and program memory read back what was written (10_state.md R20, R25), and a program word that has not
been written stops the fetch and the scans (R25, U6). -/

namespace Sys2Proof.Machine

/-- Settles O20: the laws of the two sparse memories. -/
theorem memoriesReadBackAndStayCanonical : Obligations.MemoriesReadBackAndStayCanonical :=
  ⟨cellAt_writeCell, progAt_writeProg, fun _ a v h => Memory.wf_write a v h, fun _ i w h => Memory.wf_write i w h,
    fun _ _ => tape_ext, fun _ _ => prog_ext⟩

variable {s u : State}

/-! ## The fetch -/

/-- When the block moves next in a run, the step is a step of the block. -/
theorem step_of_blockRunsFrom (h : s.blockRunsFrom u) : step s = blockStep u := by
  obtain ⟨-, ⟨hb, rfl⟩ | ⟨rest, hb, rfl⟩⟩ := h
  · exact step_nil hb
  · exact step_tick hb

theorem blockStep_fetchUnwritten (hr : s.status = .running) (hp : s.pc < s.progLen) (hl : s.preLimit = false)
    (hw : s.progAt s.pc.toNat = none) : blockStep s = .fault (.unwrittenWord s.pc.toNat) := by
  have hn : ¬ s.progLen ≤ s.pc := by bv_omega
  simp [blockStep, hr, hn, hl, iterate, hw]

/-- Settles O27: the state the block moves from has the same run, program and budget. -/
theorem fetchOfAnUnwrittenWordFaults : Obligations.FetchOfAnUnwrittenWordFaults := by
  intro s u h hp hl hw
  have hl : s.preLimit = false := Bool.eq_false_iff.2 fun h => hl ((preLimit_iff s).1 h)
  rw [step_of_blockRunsFrom h]
  obtain ⟨hr, ⟨-, rfl⟩ | ⟨rest, -, rfl⟩⟩ := h
  · exact blockStep_fetchUnwritten hr hp hl hw
  · exact blockStep_fetchUnwritten (s := { s with bus := rest }) hr hp hl hw

/-! ## The match a scan finds (44_bracket_jump.md R158) -/

/-- The brackets strictly between `i` and `j` are balanced if the level is the same before both. -/
theorem balanced_iff {i j : Nat} (h : i < j) : s.balanced i j ↔ s.level j = s.level (i + 1) := by
  rw [State.balanced, openBrackets_eq_level, Nat.add_sub_cancel' h]
  omega

/-- The index a forward scan finds is the match. -/
theorem forwardMatch_of_forwardScan {j : Nat} (h : s.forwardScan = ⟨.found, j, 0⟩) : s.forwardMatch s.pc.toNat j := by
  obtain ⟨hlt, hle, -, hend, hin⟩ := (scanForward_found_iff s _ _ _ _ le_rfl).1 h
  have hj := hin j hlt le_rfl
  have hlev := level_succ s j
  have hbounds := weightAt_bounds s j
  refine ⟨hlt, by omega, weightAt_eq_neg_one (by omega), (balanced_iff hlt).2 (by omega), fun k hkj hik hk hbal => ?_⟩
  rw [balanced_iff hik] at hbal
  have hnext := hin (k + 1) (by omega) (by omega)
  have hklev := level_succ s k
  rw [weightAt_jnz hk] at hklev
  omega

/-- The index a backward scan finds is the match. -/
theorem backwardMatch_of_backwardScan {i : Nat} (h : s.backwardScan = ⟨.found, i, 0⟩) :
    s.backwardMatch s.pc.toNat i := by
  obtain ⟨hlt, -, hend, hin⟩ := (scanBackward_found_iff s _ _ _ le_rfl).1 h
  have hi := hin (i + 1) (by omega) (by omega)
  have hlev := level_succ s i
  have hbounds := weightAt_bounds s i
  refine ⟨hlt, weightAt_eq_one (by omega), (balanced_iff hlt).2 (by omega), fun k hkj hik hk hbal => ?_⟩
  rw [balanced_iff hkj] at hbal
  have hnext := hin k hik (by omega)
  have hklev := level_succ s k
  rw [weightAt_jz hk] at hklev
  omega

/-! ## The scans at an unwritten word -/

/-- A forward scan that meets no match before the unwritten word `k` stops there: if it found an index beyond `k`, or ran off
the program, or stopped beyond `k`, the word at `k` would be written. -/
theorem finishScan_forward_unwritten {k : Nat} (hw : s.progAt k = none) (hlo : s.pc.toNat < k)
    (hhi : k < s.progLen.toNat)
    (hbefore : ∀ j < k, s.pc.toNat < j → s.progAt j ≠ none ∧ ¬ s.forwardMatch s.pc.toNat j) :
    finishScan .unmatchedForward s.forwardScan s = .fault (.unwrittenWord k) := by
  rcases scanForward_spec s (s.progLen.toNat - (s.pc.toNat + 1)) s.pc.toNat 1 le_rfl with
    ⟨j, h, hj, -⟩ | ⟨e, -, -, -, hwritten⟩ | ⟨p, e, h, hp, -, hpw, hwritten⟩
  · obtain ⟨-, -, hwritten, -⟩ := (scanForward_found_iff s _ _ _ _ le_rfl).1 h
    rcases Nat.lt_or_ge j k with hjk | hkj
    · exact absurd (forwardMatch_of_forwardScan h) (hbefore j hjk hj).2
    · exact absurd hw (hwritten k hlo hkj)
  · exact absurd hw (hwritten k hlo (by omega))
  · obtain rfl : p + 1 = k := by
      rcases Nat.lt_trichotomy (p + 1) k with hlt | heq | hgt
      · exact absurd hpw (hbefore (p + 1) hlt (by omega)).1
      · exact heq
      · exact absurd hw (hwritten k hlo (by omega))
    rw [State.forwardScan, h, finishScan_unwritten]

/-- A backward scan that meets no match after the unwritten word `k` stops there, for the same reasons. -/
theorem finishScan_backward_unwritten {k : Nat} (hw : s.progAt k = none) (hhi : k < s.pc.toNat)
    (hafter : ∀ j < s.pc.toNat, k < j → s.progAt j ≠ none ∧ ¬ s.backwardMatch s.pc.toNat j) :
    finishScan .unmatchedBackward s.backwardScan s = .fault (.unwrittenWord k) := by
  rcases scanBackward_spec s s.pc.toNat 1 le_rfl with
    ⟨j, h, hj, -⟩ | ⟨e, -, -, -, hwritten⟩ | ⟨p, e, h, hp, hpw, hwritten⟩
  · obtain ⟨-, hwritten, -⟩ := (scanBackward_found_iff s _ _ _ le_rfl).1 h
    rcases Nat.lt_or_ge k j with hkj | hjk
    · exact absurd (backwardMatch_of_backwardScan h) (hafter j hj hkj).2
    · exact absurd hw (hwritten k hjk hhi)
  · exact absurd hw (hwritten k hhi)
  · obtain rfl : p = k := by
      rcases Nat.lt_trichotomy p k with hlt | heq | hgt
      · exact absurd hw (hwritten k hlt hhi)
      · exact heq
      · exact absurd hpw (hafter p hp hgt).1
    rw [State.backwardScan, h, finishScan_unwritten]

theorem exec_jz_scans (h : s.cellReady) (hz : s.cell = 0) :
    exec .jz s = finishScan .unmatchedForward s.forwardScan s := by
  rw [exec_jz, withCell_ready h, if_pos ((zeroCond_iff _).2 hz)]

theorem exec_jnz_scans (h : s.cellReady) (hz : s.cell ≠ 0) :
    exec .jnz s = finishScan .unmatchedBackward s.backwardScan s := by
  rw [exec_jnz, withCell_ready h, if_neg (mt (zeroCond_iff _).1 hz)]

/-- Settles O17: with the current cell there, each bracket does its scan, which stops at the unwritten word. -/
theorem scanOfAnUnwrittenWordFaults : Obligations.ScanOfAnUnwrittenWordFaults := fun _ _ hready hw =>
  ⟨fun hz hlo hhi hbefore => (exec_jz_scans hready hz).trans (finishScan_forward_unwritten hw hlo hhi hbefore),
    fun hz hhi hafter => (exec_jnz_scans hready hz).trans (finishScan_backward_unwritten hw hhi hafter)⟩

end Sys2Proof.Machine
end

section
/-! PROOF. What no step changes and what no step shows: the configuration after the COMMIT (10_state.md R36 to R40), the
synthesis parameters (00_scope.md R6), and the registers of the bracket-jump FSM (10_state.md R33, 44_bracket_jump.md
R156). -/

namespace Sys2Proof.Machine

variable {s t u : State}

/-! ## The configuration -/

/-- The parameters, the configuration registers and IN_OVF of `t` are those of `s`. -/
structure SameConfig (s t : State) : Prop where
  params : t.params = s.params
  tapeLen : t.cfgTapeLen = s.cfgTapeLen
  flags : t.cfgFlags = s.cfgFlags
  maxSteps : t.cfgMaxSteps = s.cfgMaxSteps
  inOvf : t.inOvf = s.inOvf

theorem SameConfig.refl (s : State) : SameConfig s s := ⟨rfl, rfl, rfl, rfl, rfl⟩

theorem SameConfig.raise (h : SameConfig s t) (e : RunError) : SameConfig s (t.raise e) :=
  ⟨(raise_params t e).trans h.params, (raise_cfgTapeLen t e).trans h.tapeLen, (raise_cfgFlags t e).trans h.flags,
    (raise_cfgMaxSteps t e).trans h.maxSteps, (raise_inOvf t e).trans h.inOvf⟩

/-- No instruction writes the configuration. -/
theorem Executed.sameConfig {i : Instr} (h : Executed i s t) : SameConfig s t := by
  cases h with
  | stored | popped | moved | appended | passed | jumped => exact ⟨rfl, rfl, rfl, rfl, rfl⟩
  | raised r e =>
    have hscan : SameConfig s (s.setScan r) := ⟨rfl, rfl, rfl, rfl, rfl⟩
    exact hscan.raise e

/-- Nor does a step of the block. -/
theorem BlockMoved.sameConfig (h : BlockMoved s t) : SameConfig s t := by
  cases h with
  | waited => exact .refl s
  | finished => exact ⟨rfl, rfl, rfl, rfl, rfl⟩
  | preLimit => exact (SameConfig.refl s).raise _
  | executed _ _ _ _ _ _ he => exact (exec_next he).sameConfig
  | postLimit _ _ _ _ _ _ he => exact (exec_next he).sameConfig.raise _

theorem construct_params (s : State) : s.construct.params = s.params := by
  unfold State.construct
  split <;> rfl

/-- No host write changes the parameters. -/
theorem HostWrote.params (h : HostWrote s t) : t.params = s.params := by
  cases h with
  | committed => exact construct_params s
  | progData => rw [writeProgData_eq]
  | _ => rfl

/-- Outside CONFIG a host write changes the configuration by a reset alone, which leads to CONFIG. -/
theorem HostWrote.sameConfig (h : HostWrote s t) (hs : s.status ≠ .config) (ht : t.status ≠ .config) :
    SameConfig s t := by
  cases h with
  | nothing => exact .refl s
  | reset => exact absurd rfl ht
  | tapeLen _ hc | flags _ hc | maxSteps _ hc | pushed _ hc | overflow hc | committed hc => exact absurd hc hs
  | started | progLen | progAddr | outAddr => exact ⟨rfl, rfl, rfl, rfl, rfl⟩
  | progData => rw [writeProgData_eq]; exact ⟨rfl, rfl, rfl, rfl, rfl⟩

/-- Settles O35: the four kinds of step, each by its own frame. -/
theorem configurationIsReadOnlyAfterCommit : Obligations.ConfigurationIsReadOnlyAfterCommit := by
  intro s t h
  obtain ⟨rest, -, hb | hw | ⟨v, rfl⟩ | rfl⟩ := step_next h
  · obtain ⟨hp, hn, hf, hm, ho⟩ := hb.sameConfig
    exact ⟨hp, fun _ _ => ⟨hn, hf, hm, ho⟩⟩
  · refine ⟨hw.params, fun hs ht => ?_⟩
    obtain ⟨-, hn, hf, hm, ho⟩ := hw.sameConfig hs ht
    exact ⟨hn, hf, hm, ho⟩
  · exact ⟨rfl, fun _ _ => ⟨rfl, rfl, rfl, rfl⟩⟩
  · exact ⟨rfl, fun _ ht => absurd rfl ht⟩

/-! ## The registers of the bracket-jump FSM -/

/-- `s` with other values in SCAN_DIR, SCAN_POS and DEPTH. -/
def State.withScan (s : State) (d : ScanDir) (p n : Word) : State := { s with scanDir := d, scanPos := p, depth := n }

/-- The two states differ at most in the registers of the FSM. -/
def SameButScan (t t' : State) : Prop := ∃ d p n, t' = t.withScan d p n

/-- The two outcomes differ at most in the registers of the FSM. -/
inductive OutSameButScan : Out → Out → Prop where
  | next {t t' : State} (h : SameButScan t t') : OutSameButScan (.next t) (.next t')
  | fault (f : Fault) : OutSameButScan (.fault f) (.fault f)
  | refused (r : Refusal) : OutSameButScan (.refused r) (.refused r)

theorem SameButScan.refl (s : State) : SameButScan s s := ⟨s.scanDir, s.scanPos, s.depth, rfl⟩

theorem OutSameButScan.refl (o : Out) : OutSameButScan o o := by
  cases o with
  | next t => exact .next (.refl t)
  | fault f => exact .fault f
  | refused r => exact .refused r

/-- No condition the machine tests reads the FSM, so that two such states take the same branch. -/
theorem SameButScan.ite {c : Prop} [Decidable c] {a a' b b' : State} (h : SameButScan a a') (h' : SameButScan b b') :
    SameButScan (if c then a else b) (if c then a' else b') := by
  split
  · exact h
  · exact h'

theorem OutSameButScan.ite {c : Prop} [Decidable c] {a a' b b' : Out} (h : OutSameButScan a a')
    (h' : OutSameButScan b b') : OutSameButScan (if c then a else b) (if c then a' else b') := by
  split
  · exact h
  · exact h'

section
variable (s : State) (d : ScanDir) (p n : Word)

theorem raise_withScan (e : RunError) : (s.withScan d p n).raise e = (s.raise e).withScan d p n := by
  cases e <;> rfl

/-- A finished scan overwrites what the FSM held. -/
theorem finishScan_sameButScan (e : RunError) (r : Scan) :
    OutSameButScan (finishScan e r s) (finishScan e r (s.withScan d p n)) := .refl _

theorem withCell_sameButScan {k k' : Byte → Out} (h : OutSameButScan (k s.cell) (k' s.cell)) :
    OutSameButScan (withCell s k) (withCell (s.withScan d p n) k') := .ite (.fault _) (.ite (.fault _) h)

/-- An instruction leaves the FSM as it is, or overwrites it at the end of a scan. -/
theorem exec_sameButScan (i : Instr) : OutSameButScan (exec i s) (exec i (s.withScan d p n)) := by
  have kept : ∀ t : State, OutSameButScan (.next t) (.next (t.withScan d p n)) := fun t => .next ⟨d, p, n, rfl⟩
  cases i with
  | inc => rw [exec_inc, exec_inc]; exact withCell_sameButScan s d p n (kept _)
  | dec => rw [exec_dec, exec_dec]; exact withCell_sameButScan s d p n (kept _)
  | input => rw [exec_input, exec_input]; exact withCell_sameButScan s d p n (kept _)
  | output => rw [exec_output, exec_output]; exact withCell_sameButScan s d p n (.ite (.fault _) (kept _))
  | left | right | nop => exact kept _
  | jz =>
    rw [exec_jz, exec_jz]
    exact withCell_sameButScan s d p n (.ite (finishScan_sameButScan s d p n _ _) (kept _))
  | jnz =>
    rw [exec_jnz, exec_jnz]
    exact withCell_sameButScan s d p n (.ite (kept _) (finishScan_sameButScan s d p n _ _))

theorem postCheck_sameButScan {o o' : Out} (h : OutSameButScan o o') : OutSameButScan (postCheck o) (postCheck o') := by
  cases h with
  | next h =>
    obtain ⟨d, p, n, rfl⟩ := h
    exact .ite (.next ⟨d, p, n, raise_withScan _ d p n _⟩) (.next ⟨d, p, n, rfl⟩)
  | fault f => exact .fault f
  | refused r => exact .refused r

theorem iterate_sameButScan : OutSameButScan (iterate s) (iterate (s.withScan d p n)) := by
  have hprog : (s.withScan d p n).progAt (s.withScan d p n).pc.toNat = s.progAt s.pc.toNat := rfl
  unfold iterate
  rw [hprog]
  cases s.progAt s.pc.toNat with
  | none => exact .fault _
  | some w => exact postCheck_sameButScan (exec_sameButScan s d p n (decode w))

theorem blockStep_sameButScan : OutSameButScan (blockStep s) (blockStep (s.withScan d p n)) :=
  .ite (.ite (.next ⟨d, p, n, rfl⟩)
    (.ite (.next ⟨d, p, n, raise_withScan s d p n _⟩) (iterate_sameButScan s d p n))) (.next ⟨d, p, n, rfl⟩)

theorem construct_sameButScan : SameButScan s.construct (s.withScan d p n).construct :=
  .ite ⟨d, p, n, rfl⟩ ⟨d, p, n, rfl⟩

/-- A reset overwrites what the FSM held. -/
theorem hardReset_sameButScan : SameButScan s.hardReset (s.withScan d p n).hardReset := .refl _

theorem writeCtrl_sameButScan (v : Word) : SameButScan (s.writeCtrl v) ((s.withScan d p n).writeCtrl v) :=
  .ite (.ite ⟨d, p, n, rfl⟩ (hardReset_sameButScan s d p n)) (.ite ⟨d, p, n, rfl⟩ ⟨d, p, n, rfl⟩)

theorem writeReg_sameButScan (r : HostReg) (v : Word) :
    SameButScan (s.writeReg r v) ((s.withScan d p n).writeReg r v) := by
  cases r with
  | ctrl => exact writeCtrl_sameButScan s d p n v
  | inPush => exact .ite ⟨d, p, n, rfl⟩ ⟨d, p, n, rfl⟩
  | cfgCommit => exact .ite (construct_sameButScan s d p n) ⟨d, p, n, rfl⟩
  | progData => exact ⟨d, p, n, by simp only [State.writeReg, writeProgData_eq]; rfl⟩
  | _ => exact ⟨d, p, n, rfl⟩

theorem hostWrite_sameButScan (bits offset : Nat) (v : Word) :
    SameButScan (s.hostWrite bits offset v) ((s.withScan d p n).hostWrite bits offset v) := by
  unfold State.hostWrite
  cases HostReg.select bits offset with
  | none => exact ⟨d, p, n, rfl⟩
  | some r => exact .ite (writeReg_sameButScan s d p n r v) ⟨d, p, n, rfl⟩

theorem hostAct_sameButScan (a : HostAction) : OutSameButScan (hostAct a s) (hostAct a (s.withScan d p n)) := by
  cases a with
  | tick => exact blockStep_sameButScan s d p n
  | write bits offset v => exact .next (hostWrite_sameButScan s d p n bits offset v)
  | read bits offset => exact .next ⟨d, p, n, rfl⟩
  | hardReset => exact .next (hardReset_sameButScan s d p n)

theorem step_sameButScan : OutSameButScan (step s) (step (s.withScan d p n)) := by
  cases hb : s.bus with
  | nil =>
    rw [step_nil hb, step_nil (s := s.withScan d p n) hb]
    exact blockStep_sameButScan s d p n
  | cons a rest =>
    rw [step_cons hb, step_cons (s := s.withScan d p n) hb]
    exact hostAct_sameButScan { s with bus := rest } d p n a

end

/-- Settles O38: the two outcomes of `step_sameButScan`. -/
theorem scanRegistersAreHidden : Obligations.ScanRegistersAreHidden := by
  intro s d p n
  have h : OutSameButScan (step s) (step { s with scanDir := d, scanPos := p, depth := n }) := step_sameButScan s d p n
  refine ⟨fun t ht => ?_, fun f hf => ?_⟩
  · rw [ht] at h
    generalize step { s with scanDir := d, scanPos := p, depth := n } = o at h ⊢
    cases h with
    | next h => obtain ⟨d', p', n', rfl⟩ := h; exact ⟨d', p', n', rfl⟩
  · rw [hf] at h
    generalize step { s with scanDir := d, scanPos := p, depth := n } = o at h ⊢
    cases h
    rfl

end Sys2Proof.Machine
end

section
/-! PROOF. The register bank (10_state.md R34 to R45, 20_memory.md R64, 40_dispatch.md R100), register by register, through
the host's accesses. -/

namespace Sys2Proof.Machine

variable {s t : State} {bits offset : Nat} {v : Word} {rest : List HostAction}

/-! ## A step with a host access -/

/-- A write does what the register bank does, on the state from which the access has been taken. -/
theorem step_write_eq (h : s.bus = .write bits offset v :: rest)
    (hw : State.hostWrite { s with bus := rest } bits offset v = t) : step s = .next t := by rw [step_write h, hw]

/-- No register reads the host's pending actions. -/
theorem hostRead_setBus (s : State) (rest : List HostAction) (bits offset : Nat) :
    State.hostRead { s with bus := rest } bits offset = s.hostRead bits offset := rfl

/-- A read changes nothing but what the host gets, which is the register's value before it (10_state.md R34). -/
theorem step_read_eq (h : s.bus = .read bits offset :: rest) :
    step s = .next { s with bus := rest, readData := s.hostRead bits offset } := by rw [step_read h, hostRead_setBus]

/-! ## CTRL (R35, R100) -/

/-- START can begin a run in IDLE and after a run (R35). -/
theorem startable_iff (st : Status) :
    st.startable = true ↔ st ∈ [Status.idle, .doneOk, .errUnmatchedFwd, .errUnmatchedBwd, .errStepLimit] := by
  cases st <;> decide

/-- While RUNNING neither bit of CTRL has an effect. -/
theorem writeCtrl_running (hr : s.status = .running) : s.writeCtrl v = s :=
  writeCtrl_ignored (fun _ => hr) fun _ _ h => by simp [hr, Status.startable] at h

/-- Without SOFT_RESET and START a write of CTRL has no effect. -/
theorem writeCtrl_neither (h1 : v.getLsbD 1 = false) (h0 : v.getLsbD 0 = false) : s.writeCtrl v = s :=
  writeCtrl_ignored (fun h => absurd (h1.symm.trans h) nofun) fun _ h => absurd (h0.symm.trans h) nofun

/-- START has no effect on a program that does not fit program memory. -/
theorem writeCtrl_tooLong (h1 : v.getLsbD 1 = false) (hl : s.params.progCap < s.progLen.toNat) : s.writeCtrl v = s :=
  writeCtrl_ignored (fun h => absurd (h1.symm.trans h) nofun) fun _ _ _ => hl

/-- Nor before construction or after its refusal. -/
theorem writeCtrl_notStartable (h1 : v.getLsbD 1 = false) (hs : s.status.startable = false) : s.writeCtrl v = s :=
  writeCtrl_ignored (fun h => absurd (h1.symm.trans h) nofun) fun _ _ h => absurd (hs.symm.trans h) nofun

/-- Settles O47: the cases of `writeCtrl`, and the two reads. -/
theorem ctrlStartsARunOrResets : Obligations.CtrlStartsARunOrResets := by
  intro s v rest
  refine ⟨step_read_eq, step_read_eq, fun hb => ⟨fun hr => ?running, fun h1 hr => ?softReset, fun h1 h0 => ?neither,
    fun h1 h0 hst => ⟨fun hl => ?start, fun hl => ?tooLong⟩, fun h1 hst => ?notStartable⟩⟩
  case running => exact step_write_eq hb (writeCtrl_running hr)
  case softReset => exact step_write_eq hb (writeCtrl_softReset h1 hr)
  case neither => exact step_write_eq hb (writeCtrl_neither h1 h0)
  case start => exact step_write_eq hb (writeCtrl_start h1 h0 ((startable_iff _).2 hst) hl)
  case tooLong => exact step_write_eq hb (writeCtrl_tooLong h1 hl)
  case notStartable =>
    refine step_write_eq hb (writeCtrl_notStartable h1 ?_)
    rcases hst with hst | hst
    · exact congrArg Status.startable hst
    · exact congrArg Status.startable hst

/-! ## CONFIG_REJECTED (R45) -/

/-- There the access column permits a write of CTRL alone. -/
theorem writable_configRejected (r : HostReg) : r.writable .configRejected = true ↔ r = .ctrl := by
  cases r <;> decide

theorem select_ctrl (h : HostReg.select bits offset = some .ctrl) : bits = 32 ∧ offset = 0x00 := by
  obtain ⟨hb, hm⟩ := select_eq_some h
  simpa [hb] using hm

/-- Only SOFT_RESET has an effect there. -/
theorem hostWrite_configRejected (hs : s.status = .configRejected)
    (hn : ¬ (bits = 32 ∧ offset = 0x00 ∧ v.getLsbD 1 = true)) : s.hostWrite bits offset v = s := by
  cases hsel : HostReg.select bits offset with
  | none => exact hostWrite_none v hsel
  | some r =>
    rw [hostWrite_some v hsel]
    by_cases hr : r = .ctrl
    · subst hr
      obtain ⟨rfl, rfl⟩ := select_ctrl hsel
      have h1 : v.getLsbD 1 = false := Bool.eq_false_iff.2 fun h => hn ⟨rfl, rfl, h⟩
      exact (if_pos rfl).trans (writeCtrl_notStartable h1 (congrArg Status.startable hs))
    · rw [if_neg (by rw [hs]; exact mt (writable_configRejected r).1 hr)]

/-- Settles O49, by the kinds of host action. -/
theorem rejectedConfigurationIsLeftOnlyByReset : Obligations.RejectedConfigurationIsLeftOnlyByReset := by
  intro s t a rest hs hb h
  refine ⟨?_, fun hn => ?_⟩
  · rintro (rfl | ⟨v, rfl, h1⟩)
    · rw [step_hardReset hb] at h
      cases h
      rfl
    · rw [step_write hb, hostWrite_ctrl, writeCtrl_softReset h1 (by simp [hs])] at h
      cases h
      rfl
  · cases a with
    | tick =>
      rw [step_tick hb, blockStep_not_running (by simp [hs])] at h
      cases h
      rfl
    | write bits offset v =>
      rw [step_write_eq hb (hostWrite_configRejected hs ?_)] at h
      · cases h
        rfl
      · rintro ⟨rfl, rfl, h1⟩
        exact hn (.inr ⟨v, rfl, h1⟩)
    | read bits offset =>
      rw [step_read_eq hb] at h
      cases h
      rfl
    | hardReset => exact absurd (.inl rfl) hn

/-! ## Reads (R34, R43, R44) -/

theorem outLen_toNat (s : State) (hl : s.outbuf.length < 2 ^ 32) :
    s.outLen.toNat = if s.status = .doneOk then s.outbuf.length else 0 := by
  unfold State.outLen
  rw [if_pos hl]
  split
  · rw [BitVec.toNat_ofNat, Nat.mod_eq_of_lt hl]
  · rfl

theorem outLen_not_done (h : s.status ≠ .doneOk) : s.outLen = 0 := if_neg h

theorem outData_not_done (h : s.status ≠ .doneOk) : s.outData = 0 := if_neg h

/-- In DONE_OK the byte at OUT_ADDR, and 0 beyond the last byte (R44). -/
theorem outData_done (h : s.status = .doneOk) :
    s.outData.toNat = ((s.outbuf[s.outAddr.toNat]?).map BitVec.toNat).getD 0 := by
  unfold State.outData
  rw [if_pos h, BitVec.toNat_setWidth]
  cases s.outbuf[s.outAddr.toNat]? with
  | none => rfl
  | some b => exact Nat.mod_eq_of_lt (by have := b.isLt; dsimp only [Option.getD_some]; omega)

/-- The byte the host has named in OUT_ADDR. -/
theorem outData_byte (hd : s.status = .doneOk) (h : s.outAddr.toNat < s.outbuf.length) :
    s.outData.toNat = (s.outbuf[s.outAddr.toNat]'h).toNat := by
  rw [outData_done hd, List.getElem?_eq_getElem h]
  rfl

theorem outData_beyond (h : s.outbuf.length ≤ s.outAddr.toNat) : s.outData = 0 := by
  unfold State.outData
  rw [List.getElem?_eq_none h]
  split <;> rfl

theorem outData_toNat (s : State) : s.outData.toNat =
    if s.status = .doneOk then ((s.outbuf[s.outAddr.toNat]?).map BitVec.toNat).getD 0 else 0 := by
  split
  · exact outData_done ‹_›
  · rw [outData_not_done ‹_›]; rfl

/-- The codes of 10_state.md R31. -/
theorem statusCode_toNat (st : Status) : (st.code.setWidth 32).toNat =
    (match st with
      | .config => 0 | .idle => 1 | .running => 2 | .doneOk => 3
      | .errUnmatchedFwd => 4 | .errUnmatchedBwd => 5 | .errStepLimit => 6 | .configRejected => 7) := by
  cases st <;> rfl

/-- The write-only registers read 0, at their width as at any other. -/
theorem hostRead_writeOnly (s : State) (bits : Nat) (h : offset ∈ [0x00, 0x14, 0x18, 0x24]) :
    s.hostRead bits offset = 0 := by
  by_cases hb : bits = 32
  · subst hb
    simp only [List.mem_cons, List.not_mem_nil, or_false] at h
    rcases h with rfl | rfl | rfl | rfl <;> rfl
  · exact hostRead_none (select_eq_none (.inl hb))

/-- Settles O50: the value each register reads, and the writes that reach none or a read-only one. -/
theorem registerReadsHaveNoSideEffect : Obligations.RegisterReadsHaveNoSideEffect := by
  intro s bits offset rest
  refine ⟨fun hb => ⟨_, step_read_eq hb, rfl, fun h => hostRead_none (select_eq_none h), hostRead_writeOnly s bits,
    ?status, ?tapeLen, ?flags, ?maxSteps, ?progLen, ?progAddr, ?outLen, ?outAddr, ?outData⟩, fun v hb h => ?_⟩
  case status => rintro rfl rfl; exact statusCode_toNat s.status
  case tapeLen => rintro rfl rfl; rfl
  case flags =>
    rintro rfl rfl
    exact BitVec.toNat_setWidth_of_le (by decide)
  case maxSteps => rintro rfl rfl; rfl
  case progLen => rintro rfl rfl; rfl
  case progAddr => rintro rfl rfl; rfl
  case outLen => rintro rfl rfl hl; exact outLen_toNat s hl
  case outAddr => rintro rfl rfl; rfl
  case outData => rintro rfl rfl; exact outData_toNat s
  refine step_write_eq hb ?_
  by_cases hbits : bits = 32
  · subst hbits
    rcases h with h | h | h | h
    · exact absurd rfl h
    · exact hostWrite_none v (select_eq_none (.inr (.inl h)))
    · exact hostWrite_none v (select_eq_none (.inr (.inr h)))
    · exact hostWrite_readOnly v h
  · exact hostWrite_none v (select_eq_none (.inl hbits))

/-- Settles O51, by what OUT_LEN reads. -/
theorem outLenReadsTheNumberOfOutputBytes : Obligations.OutLenReadsTheNumberOfOutputBytes := fun s _ hb =>
  ⟨_, step_read_eq hb, fun hd hl => (outLen_toNat s hl).trans (if_pos hd), outLen_not_done⟩

/-- OUT_ADDR takes what is written, except in CONFIG_REJECTED (R43). -/
theorem step_writeOutAddr (h : s.bus = .write 32 0x2C v :: rest) :
    step s = .next { s with bus := rest, outAddr := if s.status = .configRejected then s.outAddr else v } := by
  rw [step_write h, hostWrite_outAddr]
  split <;> rfl

/-- The two accesses by which the host collects the byte at `i`: OUT_ADDR then holds some index, in DONE_OK it is `i`. -/
theorem run_writeOutAddr_readOutData {i : Word} (hb : s.bus = [.write 32 0x2C i, .read 32 0x30]) :
    ∃ a, (s.status = .doneOk → a = i) ∧ Host.Core.run Sys2Proof.core 2 s =
      .next { s with bus := [], outAddr := a, readData := State.outData { s with outAddr := a } } :=
  ⟨_, fun hd => if_neg (by rw [hd]; nofun),
    (run_next (step_writeOutAddr hb)).trans ((run_next (step_read_eq rfl)).trans (run_zero _))⟩

/-- Settles O52: in DONE_OK the host reads the byte at the index, and in every other STATE 0 whatever OUT_ADDR holds. -/
theorem hostCollectsTheOutputByteByByte : Obligations.HostCollectsTheOutputByteByByte := by
  intro s i hb
  obtain ⟨a, ha, hrun⟩ := run_writeOutAddr_readOutData hb
  refine ⟨_, hrun, rfl, rfl, fun h hd => ?_, fun h => ?_, fun hd => outData_not_done hd⟩
  · obtain rfl := ha hd
    exact outData_byte (s := { s with outAddr := a }) hd h
  · by_cases hd : s.status = .doneOk
    · obtain rfl := ha hd
      exact outData_beyond h
    · exact outData_not_done hd

/-! ## IN_PUSH (R40) -/

/-- Settles O53: in CONFIG the two cases of `pushInput`, and no effect elsewhere. -/
theorem inPushAppendsOneByteInConfig : Obligations.InPushAppendsOneByteInConfig := by
  intro s w rest hb
  refine ⟨fun hs hl => ⟨w.setWidth 8, BitVec.toNat_setWidth 8 w, ?_⟩, fun hs hl => ?_, fun hs => ?_⟩
  · exact step_write_eq hb ((hostWrite_inPush _ w).trans ((if_pos hs).trans (pushInput_room w hl)))
  · exact step_write_eq hb ((hostWrite_inPush _ w).trans ((if_pos hs).trans (pushInput_full w (Nat.not_lt.2 hl))))
  · exact step_write_eq hb ((hostWrite_inPush _ w).trans (if_neg hs))

/-! ## PROG_DATA (R41) -/

/-- The word at PROG_ADDR reads as written if program memory has it, and every other word as before. -/
theorem progAt_writeProgData (s : State) (w : Word) (i : Nat) : (s.writeProgData w).progAt i =
    if i = s.progAddr.toNat ∧ s.progAddr.toNat < s.params.progCap then some w else s.progAt i := by
  rw [writeProgData_eq]
  by_cases hc : s.progAddr.toNat < s.params.progCap
  · simpa [State.progAt, hc] using progAt_writeProg s s.progAddr.toNat i w
  · simp [State.progAt, hc]

/-- Settles O54, by what `writeProgData` leaves and what reads back from it. -/
theorem progDataStoresOneWordAndMovesOn : Obligations.ProgDataStoresOneWordAndMovesOn := by
  intro s w rest hb
  refine ⟨fun hr hrej => ?_, fun h => step_write_eq hb ((hostWrite_progData _ w).trans (if_pos h))⟩
  refine ⟨State.writeProgData { s with bus := rest } w, ?_, ?_, progAt_writeProgData _ w⟩
  · rw [step_write hb, hostWrite_progData, if_neg (by simp [hr, hrej])]
  · simp [writeProgData_eq]

/-! ## The plain registers (R36 to R38, R41 to R43) -/

/-- Settles O55, register by register. -/
theorem plainRegistersTakeWhatIsWritten : Obligations.PlainRegistersTakeWhatIsWritten := by
  intro s offset v rest hb
  refine ⟨?tapeLen, ?flags, ?maxSteps, ?progLen, ?progAddr, ?outAddr⟩
  case tapeLen => rintro rfl; rw [step_write hb, hostWrite_cfgTapeLen]
  case flags =>
    rintro rfl
    refine ⟨_, (step_write hb).trans (congrArg _ (hostWrite_cfgFlags _ v)), rfl, ?_⟩
    split
    · exact BitVec.toNat_setWidth 2 v
    · rfl
  case maxSteps => rintro rfl; rw [step_write hb, hostWrite_cfgMaxSteps]
  case progLen => rintro rfl; rw [step_write hb, hostWrite_progLen]; split <;> rfl
  case progAddr => rintro rfl; rw [step_write hb, hostWrite_progAddr]; split <;> rfl
  case outAddr => rintro rfl; exact step_writeOutAddr hb

end Sys2Proof.Machine
end

section
/-! PROOF. What no one can touch: the program during a run (20_memory.md R72, 10_state.md R25), and the engine under
the host's accesses of the register bank (20_memory.md R65, 60_exceptions.md R178). -/

namespace Sys2Proof.Machine

variable {s t : State}

/-! ## The program -/

/-- The program, its length and its write address of `t` are those of `s`. -/
structure SameProgram (s t : State) : Prop where
  prog : t.prog = s.prog
  progLen : t.progLen = s.progLen
  progAddr : t.progAddr = s.progAddr

theorem SameProgram.refl (s : State) : SameProgram s s := ⟨rfl, rfl, rfl⟩

theorem SameProgram.raise (h : SameProgram s t) (e : RunError) : SameProgram s (t.raise e) :=
  ⟨(raise_prog t e).trans h.prog, (raise_progLen t e).trans h.progLen, (raise_progAddr t e).trans h.progAddr⟩

/-- No instruction writes program memory (20_memory.md R72). -/
theorem Executed.sameProgram {i : Instr} (h : Executed i s t) : SameProgram s t := by
  cases h with
  | stored | popped | moved | appended | passed | jumped => exact ⟨rfl, rfl, rfl⟩
  | raised r e =>
    have hscan : SameProgram s (s.setScan r) := ⟨rfl, rfl, rfl⟩
    exact hscan.raise e

/-- Nor does a step of the block. -/
theorem BlockMoved.sameProgram (h : BlockMoved s t) : SameProgram s t := by
  cases h with
  | waited => exact .refl s
  | finished => exact ⟨rfl, rfl, rfl⟩
  | preLimit => exact (SameProgram.refl s).raise _
  | executed _ _ _ _ _ _ he => exact (exec_next he).sameProgram
  | postLimit _ _ _ _ _ _ he => exact (exec_next he).sameProgram.raise _

/-- While RUNNING a host write changes OUT_ADDR or nothing (10_state.md R34). -/
theorem HostWrote.running (h : HostWrote s t) (hr : s.status = .running) : ∃ v, t = { s with outAddr := v } := by
  cases h with
  | nothing => exact ⟨s.outAddr, rfl⟩
  | outAddr v => exact ⟨v, rfl⟩
  | reset h | progLen _ h | progAddr _ h | progData _ h => exact absurd hr h
  | started h | tapeLen _ h | flags _ h | maxSteps _ h | pushed _ h | overflow h | committed h => rw [hr] at h; cases h

/-- Settles O34: the block never writes the program, and the host's writes reach it only outside a run. -/
theorem programIsFixedDuringARun : Obligations.ProgramIsFixedDuringARun := by
  intro s t hr h ht
  obtain ⟨rest, -, hb | hw | ⟨v, rfl⟩ | rfl⟩ := step_next h
  · obtain ⟨hprog, hlen, haddr⟩ := hb.sameProgram
    exact ⟨hprog, hlen, haddr⟩
  · obtain ⟨v, rfl⟩ := hw.running hr
    exact ⟨rfl, rfl, rfl⟩
  · exact ⟨rfl, rfl, rfl⟩
  · exact absurd rfl ht

/-! ## The engine -/

/-- The tape (its list and its draw), PTR, PC, STEPS, OUTBUF, STATE and the pending host actions of `t` are those of `s`. -/
structure SameEngine (s t : State) : Prop where
  tape : t.tape = s.tape
  tapeDraw : t.tapeDraw = s.tapeDraw
  ptr : t.ptr = s.ptr
  pc : t.pc = s.pc
  steps : t.steps = s.steps
  outbuf : t.outbuf = s.outbuf
  status : t.status = s.status
  bus : t.bus = s.bus

theorem SameEngine.refl (s : State) : SameEngine s s := ⟨rfl, rfl, rfl, rfl, rfl, rfl, rfl, rfl⟩

/-- Only a write of CTRL or CFG_COMMIT acts on the engine; every other register holds or feeds something else. -/
theorem writeReg_sameEngine (s : State) {r : HostReg} (hctrl : r ≠ .ctrl) (hcommit : r ≠ .cfgCommit) (v : Word) :
    SameEngine s (s.writeReg r v) := by
  cases r with
  | ctrl => exact absurd rfl hctrl
  | cfgCommit => exact absurd rfl hcommit
  | status | outLen | outData => exact .refl s
  | cfgTapeLen | cfgFlags | cfgMaxSteps | progLen | progAddr | outAddr => exact ⟨rfl, rfl, rfl, rfl, rfl, rfl, rfl, rfl⟩
  | inPush =>
    show SameEngine s (s.pushInput v)
    by_cases hroom : s.inq.length < s.params.inCap
    · rw [pushInput_room v hroom]; exact ⟨rfl, rfl, rfl, rfl, rfl, rfl, rfl, rfl⟩
    · rw [pushInput_full v hroom]; exact ⟨rfl, rfl, rfl, rfl, rfl, rfl, rfl, rfl⟩
  | progData =>
    show SameEngine s (s.writeProgData v)
    rw [writeProgData_eq]; exact ⟨rfl, rfl, rfl, rfl, rfl, rfl, rfl, rfl⟩

theorem select_cfgCommit {bits offset : Nat} (h : HostReg.select bits offset = some .cfgCommit) :
    bits = 32 ∧ offset = 0x18 := by
  obtain ⟨hb, hm⟩ := select_eq_some h
  simpa [hb] using hm

/-- A host write of neither register leaves the engine alone, whatever its width and offset (20_memory.md R64). -/
theorem hostWrite_sameEngine (s : State) {bits offset : Nat} (v : Word) (hctrl : ¬ (bits = 32 ∧ offset = 0x00))
    (hcommit : ¬ (bits = 32 ∧ offset = 0x18)) : SameEngine s (s.hostWrite bits offset v) := by
  cases hsel : HostReg.select bits offset with
  | none => rw [hostWrite_none v hsel]; exact .refl s
  | some r =>
    have hr : r ≠ .ctrl := by rintro rfl; exact hctrl (select_ctrl hsel)
    have hr' : r ≠ .cfgCommit := by rintro rfl; exact hcommit (select_cfgCommit hsel)
    rw [hostWrite_some v hsel]
    split
    · exact writeReg_sameEngine s hr hr' v
    · exact .refl s

/-- Settles O39: a read changes only what the host gets, and a write only what `hostWrite_sameEngine` lets it. -/
theorem hostCannotTouchTheEngine : Obligations.HostCannotTouchTheEngine := by
  intro s a rest hb htick hreset hctrl hcommit
  obtain ⟨t, ht, hsame⟩ : ∃ t, step s = .next t ∧ SameEngine { s with bus := rest } t := by
    cases a with
    | tick => exact absurd rfl htick
    | hardReset => exact absurd rfl hreset
    | read bits offset => exact ⟨_, step_read hb, ⟨rfl, rfl, rfl, rfl, rfl, rfl, rfl, rfl⟩⟩
    | write bits offset v =>
      refine ⟨_, step_write hb, hostWrite_sameEngine _ v ?_ ?_⟩
      · rintro ⟨rfl, rfl⟩; exact hctrl v rfl
      · rintro ⟨rfl, rfl⟩; exact hcommit v rfl
  obtain ⟨htape, hdraw, hptr, hpc, hsteps, hout, hstatus, hbus⟩ := hsame
  exact ⟨t, ht, hbus, cellAt_congr htape hdraw, htape, hptr, hpc, hsteps, hout, hstatus⟩

end Sys2Proof.Machine
end

section
/-! PROOF. Decoding and encoding (30_encoding.md R82, R83, R84), and a program on its way through the register bank into
program memory (R87, 70_reset_and_hazards.md R193 step 5). -/

namespace Sys2Proof.Machine

/-! ## The decoder against the encoder -/

theorem wellFormed_nop {w : Word} : (Instr.nop w).wellFormed = true ↔ w ∉ commandCodes := by
  simp [Instr.wellFormed]

/-- A word that is none of the eight codes is a NOP (R83). -/
theorem decode_of_not_mem {w : Word} (h : w ∉ commandCodes) : decode w = .nop w := by
  simp only [commandCodes, List.mem_cons, List.not_mem_nil, or_false, not_or] at h
  simp [decode, h]

/-- On the eight codes the decoder and the encoder read the same table (R82). -/
theorem wellFormed_and_encode_decode_of_mem {w : Word} (h : w ∈ commandCodes) :
    (decode w).wellFormed = true ∧ encode (decode w) = w := by
  simp only [commandCodes, List.mem_cons, List.not_mem_nil, or_false] at h
  rcases h with rfl | rfl | rfl | rfl | rfl | rfl | rfl | rfl <;> exact ⟨rfl, rfl⟩

theorem wellFormed_and_encode_decode (w : Word) : (decode w).wellFormed = true ∧ encode (decode w) = w := by
  by_cases h : w ∈ commandCodes
  · exact wellFormed_and_encode_decode_of_mem h
  · rw [decode_of_not_mem h]
    exact ⟨wellFormed_nop.2 h, rfl⟩

theorem decode_encode {i : Instr} (h : i.wellFormed = true) : decode (encode i) = i := by
  cases i with
  | inc | input | dec | output | left | right | jz | jnz => rfl
  | nop ch => exact decode_of_not_mem (wellFormed_nop.1 h)

/-- Settles O1: the eight codes by evaluation, every other word by the comparison with all eight. -/
theorem decoderComparesTheWholeWord : Obligations.DecoderComparesTheWholeWord :=
  ⟨rfl, rfl, rfl, rfl, rfl, rfl, rfl, rfl, fun _ => decode_of_not_mem⟩

/-- Settles O2, by the two round trips. -/
theorem decodeAndEncodeAreInverse : Obligations.DecodeAndEncodeAreInverse :=
  ⟨fun _ => decode_encode, wellFormed_and_encode_decode⟩

/-! ## Words written from an index on (10_state.md R41) -/

/-- Program memory after the words have been written, in order, from index `a` on. -/
def storedFrom (m : List (Nat × Word)) (a : Nat) : List Word → List (Nat × Word)
  | [] => m
  | w :: ws => storedFrom (Memory.write progDefault m a w) (a + 1) ws

/-- The words are read back at their indices; what lies before and beyond them reads as before. -/
theorem read_storedFrom (m : List (Nat × Word)) (a : Nat) (ws : List Word) (k : Nat) :
    Memory.read progDefault (storedFrom m a ws) k =
      if k < a then Memory.read progDefault m k else (ws[k - a]?).or (Memory.read progDefault m k) := by
  induction ws generalizing m a with
  | nil => simp [storedFrom]
  | cons w ws ih =>
    rw [storedFrom, ih, Memory.read_write]
    rcases Nat.lt_trichotomy k a with h | rfl | h
    · rw [if_pos (by omega), if_neg (by omega), if_pos h]
    · simp
    · obtain ⟨j, rfl⟩ := Nat.exists_eq_add_of_lt h
      rw [if_neg (by omega), if_neg (by omega), if_neg (by omega), Nat.add_sub_add_right, Nat.add_assoc,
        Nat.add_sub_cancel_left, Nat.add_sub_cancel_left, List.getElem?_cons_succ]

/-! ## The load sequence (30_encoding.md R87, 70_reset_and_hazards.md R193 step 5) -/

section

variable {s : State} {rest : List HostAction} (hr : s.status ≠ .running) (hrej : s.status ≠ .configRejected)
include hr hrej

/-- One write of PROG_DATA, at the index in PROG_ADDR. -/
theorem step_writeProgData (m : List (Nat × Word)) (w : Word) {a : Nat} (hcap : a < s.params.progCap)
    (hlt : a < 2 ^ 32) :
    step { s with prog := m, progAddr := BitVec.ofNat 32 a, bus := .write 32 0x24 w :: rest } = .next { s with
      prog := Memory.write progDefault m a w, progAddr := BitVec.ofNat 32 (a + 1), bus := rest } := by
  have haddr : (BitVec.ofNat 32 a).toNat = a := by rw [BitVec.toNat_ofNat, Nat.mod_eq_of_lt hlt]
  rw [step_write rfl, hostWrite_progData, if_neg (not_or.2 ⟨hr, hrej⟩), writeProgData_eq, BitVec.ofNat_add]
  simp only [haddr, if_pos hcap]
  rfl

/-- A list of words that fits program memory, written word by word to PROG_DATA. -/
theorem run_writeWords (n : Nat) (ws : List Word) (m : List (Nat × Word)) (a : Nat)
    (hcap : a + ws.length ≤ s.params.progCap) (hlt : a + ws.length < 2 ^ 32) :
    Host.Core.run Sys2Proof.core (ws.length + n) { s with
        prog := m, progAddr := BitVec.ofNat 32 a, bus := ws.map (HostAction.write 32 0x24) ++ rest } =
      Host.Core.run Sys2Proof.core n { s with
        prog := storedFrom m a ws, progAddr := BitVec.ofNat 32 (a + ws.length), bus := rest } := by
  induction ws generalizing m a with
  | nil => simp [storedFrom]
  | cons w ws ih =>
    rw [List.length_cons] at hcap hlt
    rw [List.length_cons, Nat.add_right_comm, Nat.add_comm ws.length 1, ← Nat.add_assoc]
    exact (run_next (step_writeProgData hr hrej m w (by omega) (by omega))).trans (ih _ _ (by omega) (by omega))

/-- The load sequence stores the words from index 0 on and their count in PROG_LEN. -/
theorem run_loadActions {ws : List Word} (hb : s.bus = loadActions ws) (hcap : ws.length ≤ s.params.progCap)
    (hlt : ws.length < 2 ^ 32) :
    Host.Core.run Sys2Proof.core (ws.length + 2) s = .next { s with
      prog := storedFrom s.prog 0 ws, progAddr := BitVec.ofNat 32 ws.length
      progLen := BitVec.ofNat 32 ws.length, bus := [] } := by
  have hfirst : step s = .next { s with
      progAddr := 0
      bus := ws.map (HostAction.write 32 0x24) ++ [.write 32 0x1C (BitVec.ofNat 32 ws.length)] } := by
    rw [step_write hb, hostWrite_progAddr, if_neg (not_or.2 ⟨hr, hrej⟩)]; rfl
  have hwords := run_writeWords (rest := [.write 32 0x1C (BitVec.ofNat 32 ws.length)]) hr hrej 1 ws s.prog 0
    (by omega) (by omega)
  rw [Nat.zero_add] at hwords
  refine (run_next hfirst).trans (hwords.trans ((run_next ?_).trans (run_zero _)))
  rw [step_write rfl, hostWrite_progLen, if_neg (not_or.2 ⟨hr, hrej⟩)]

end

/-- Settles O3: the load sequence stores the words of the instructions, and each word read back decodes to its own. -/
theorem loadedProgramDecodesToItsInstructions : Obligations.LoadedProgramDecodesToItsInstructions := by
  intro s is hwf hcap hlen hr hrej hb
  have hrun := run_loadActions hr hrej hb (by rwa [List.length_map]) (by rwa [List.length_map])
  rw [List.length_map] at hrun
  have hread k : Memory.read progDefault (storedFrom s.prog 0 (is.map encode)) k =
      ((is.map encode)[k]?).or (s.progAt k) := read_storedFrom s.prog 0 _ k
  refine ⟨_, hrun, fun k h => (congrArg (·.map decode) (hread k)).trans ?_, fun k h => (hread k).trans ?_, rfl⟩
  · simp [h, decode_encode (hwf _ (List.getElem_mem h))]
  · rw [List.getElem?_eq_none (by rwa [List.length_map]), Option.none_or]

end Sys2Proof.Machine
end

section
/-! PROOF. The dispatch loop (40_dispatch.md): what an instruction that does not raise advances (R105, R107), what a step of
a run does (R101, R102, R104), the placed word, and the end of every run with a budget (R110). -/

namespace Sys2Proof.Machine

variable {s t u : State}

/-! ## The advance (R105, R107) -/

theorem RunError.status_ne_running (e : RunError) : e.status ≠ .running := by cases e <;> nofun

/-- An instruction leaves STATE alone or raises. -/
theorem Executed.status_eq_or_raised {i : Instr} (h : Executed i s t) :
    t.status = s.status ∨ ∃ e : RunError, t.status = e.status := by
  cases h with
  | stored | popped | moved | appended | passed | jumped => exact .inl rfl
  | raised r e => exact .inr ⟨e, raise_status _ e⟩

/-- Settles O13: the pc advance is the last thing each instruction does, and a jump puts PC onto the match its scan found. -/
theorem everyInstructionThatDoesNotRaiseAdvances : Obligations.EveryInstructionThatDoesNotRaiseAdvances := by
  intro i s t _ h ht
  cases exec_next h with
  | stored | popped | moved | appended | passed => exact ⟨rfl, .inl rfl⟩
  | jumped j hi =>
    refine ⟨rfl, .inr ⟨j, rfl, ?_⟩⟩
    rcases hi with ⟨hi, -, hscan, -⟩ | ⟨hi, -, hscan, -⟩
    · exact .inl ⟨hi, forwardMatch_of_forwardScan hscan⟩
    · exact .inr ⟨hi, backwardMatch_of_backwardScan hscan⟩
  | raised r e => exact absurd ((raise_status _ e).symm.trans ht) e.status_ne_running

/-- Settles O12, by the decoder's comparison with all eight codes. -/
theorem nopOnlyAdvances : Obligations.NopOnlyAdvances := fun w hw => ⟨decode_of_not_mem hw, exec_nop w⟩

/-! ## A step of a run (R101, R102, R104) -/

theorem blockStep_finishes (hr : s.status = .running) (hp : s.progLen ≤ s.pc) : blockStep s = .next s.finish := by
  rw [blockStep, if_pos hr, if_pos hp]

/-- Settles O22: the state the block moves from has the same PC and PROG_LEN. -/
theorem runEndsWhenPcReachesTheProgramLength : Obligations.RunEndsWhenPcReachesTheProgramLength := by
  intro s u h hp
  rw [step_of_blockRunsFrom h]
  obtain ⟨hr, ⟨-, rfl⟩ | ⟨rest, -, rfl⟩⟩ := h
  · exact blockStep_finishes hr hp
  · exact blockStep_finishes (s := { s with bus := rest }) hr hp

/-- When the block moves next, it executes the word at PC and does the POST check. -/
theorem step_executes {w : Word} (h : s.blockRunsFrom u) (hp : s.pc < s.progLen) (hl : s.preLimit = false)
    (hw : s.progAt s.pc.toNat = some w) : step s = postCheck (exec (decode w) u) := by
  rw [step_of_blockRunsFrom h]
  obtain ⟨hr, ⟨-, rfl⟩ | ⟨rest, -, rfl⟩⟩ := h
  · exact blockStep_executes hr hp hl hw
  · exact blockStep_executes (s := { s with bus := rest }) hr hp hl hw

theorem preLimit_eq_false_iff (s : State) :
    s.preLimit = false ↔ ¬ (s.params.phase = .pre ∧ s.budgetEn = true ∧ s.steps = s.cfgMaxSteps) := by
  rw [← preLimit_iff, Bool.not_eq_true]

theorem postCheck_within (h : ¬ (t.status = .running ∧ t.params.phase = .post ∧ t.budgetEn = true ∧
    t.steps = t.cfgMaxSteps)) : postCheck (.next t) = .next t := if_neg (by rwa [limitReached_iff])

theorem postCheck_atLimit (h : t.status = .running ∧ t.params.phase = .post ∧ t.budgetEn = true ∧
    t.steps = t.cfgMaxSteps) : postCheck (.next t) = .next (t.raise .stepLimitExceeded) :=
  if_pos (by rwa [limitReached_iff])

/-- Settles O21: the step is the POST check on what `exec` answers, case by case. -/
theorem stepRunsTheInstructionAtPc : Obligations.StepRunsTheInstructionAtPc := by
  intro s u i h hp hi hw hl
  have hstep : step s = postCheck (exec i u) := by
    rw [step_executes h hp ((preLimit_eq_false_iff s).2 hl) hw, decode_encode hi]
  refine ⟨fun t he hn => ?_, fun t he hlim => ?_, fun f he => ?_⟩
  · rw [hstep, he, postCheck_within hn]
  · rw [hstep, he, postCheck_atLimit hlim, raise_stepLimit]
  · rw [hstep, he, postCheck_fault]

/-! ## The placed word (R102, 30_encoding.md R80) -/

theorem fetchIndex_lt_succ (s : State) : fetchIndex s < fetchIndex s + 1 := by
  unfold fetchIndex
  split <;> bv_omega

theorem placeWord_pc_lt (s : State) (w : Word) : (placeWord s w).pc < (placeWord s w).progLen := by
  show fetchIndex s < if fetchIndex s < s.progLen then s.progLen else fetchIndex s + 1
  split
  · assumption
  · exact fetchIndex_lt_succ s

theorem placeWord_progAt (s : State) (w : Word) (k : Nat) :
    (placeWord s w).progAt k = if k = (placeWord s w).pc.toNat then some w else s.progAt k :=
  Memory.read_write progDefault s.prog _ k w

/-- A budget that is used up is switched off. -/
theorem placeWord_limitReached (s : State) (w : Word) : (placeWord s w).limitReached = false := by
  by_cases h : s.limitReached = true
  · have hb : (placeWord s w).budgetEn = false := by simp [placeWord, State.budgetEn, h]
    rw [State.limitReached, hb, Bool.false_and]
  · have hf : (placeWord s w).cfgFlags = s.cfgFlags := if_neg h
    have hsame : (placeWord s w).limitReached = s.limitReached := by
      rw [State.limitReached, State.budgetEn, hf]; rfl
    rw [hsame, Bool.eq_false_iff.2 h]

theorem step_placeWord (s : State) (w : Word) :
    step (placeWord s w) = postCheck (exec (decode w) (placeWord s w)) := by
  have hl : (placeWord s w).preLimit = false := by rw [State.preLimit, placeWord_limitReached, Bool.and_false]
  refine step_executes ⟨rfl, .inl ⟨rfl, rfl⟩⟩ (placeWord_pc_lt s w) hl ?_
  rw [placeWord_progAt, if_pos rfl]

/-- Settles O58: the placed state fetches the placed word, and everything else named is as `placeWord` found it. -/
theorem placedWordIsRunByTheNextStep : Obligations.PlacedWordIsRunByTheNextStep := by
  intro s nbits w hn
  refine ⟨decode (tableWord nbits w), if_pos hn, step_placeWord s _, fun k hk => ?_, rfl, rfl, rfl, rfl, rfl⟩
  exact (placeWord_progAt s _ k).trans (if_neg hk)

/-! ## The end of a run with a budget (R110) -/

/-- The four codes a run can end with (10_state.md R31). -/
abbrev endCodes : List Status := [.doneOk, .errUnmatchedFwd, .errUnmatchedBwd, .errStepLimit]

theorem RunError.status_mem_endCodes (e : RunError) : e.status ∈ endCodes := by cases e <;> decide

/-- The premises of R110 on a run: a budget under PRE, a written program, and the output capacity of 43_io.md R146. -/
structure BudgetedRun (s : State) : Prop where
  inv : Invariant s
  runs : s.blockRuns
  phase : s.params.phase = .pre
  budget : s.budgetEn = true
  written : s.programWritten
  outCap : s.outCapSuffices

theorem Executed.bus {i : Instr} (h : Executed i s t) : t.bus = s.bus := by
  cases h with
  | stored | popped | moved | appended | passed | jumped => rfl
  | raised r e => exact raise_bus _ e

/-- No instruction stops such a run: the output has room while a step is left, every word is written, and the current cell
is there. -/
theorem BudgetedRun.exec_ne_fault (hs : BudgetedRun s) (hp : s.pc < s.progLen) (hl : s.preLimit = false) (i : Instr)
    (f : Fault) : exec i s ≠ .fault f := by
  intro h
  have hc := constructed_of_running hs.runs.1
  cases exec_fault h with
  | held _ hf =>
    have hcap := hs.outCap _ hf
    have hout := hs.inv.output hs.phase hs.budget
    have hlt := hs.inv.stepLeft hl hs.phase hs.budget
    bv_omega
  | unwrittenAhead k _ _ _ hk hw => exact hs.written k hk hw
  | unwrittenBehind k _ _ hk hw => exact hs.written k (by bv_omega) hw
  | offTape _ _ hptr =>
    obtain ⟨-, -, hlt, -⟩ := hs.inv.engine hc
    bv_omega
  | unconstructed _ hn => exact Bool.noConfusion (hc.symm.trans hn)

theorem BudgetedRun.blockStep_ne_fault (hs : BudgetedRun s) (f : Fault) : blockStep s ≠ .fault f := by
  intro h
  obtain ⟨-, hp, hl, ⟨-, hw⟩ | ⟨w, -, he⟩⟩ := blockStep_fault h
  · exact hs.written _ hp hw
  · exact hs.exec_ne_fault hp hl _ f he

/-- No step of the block is refused, since no instruction is. -/
theorem blockStep_ne_refused (s : State) (r : Refusal) : blockStep s ≠ .refused r := by
  unfold blockStep
  split
  · split
    · nofun
    · split
      · nofun
      · unfold iterate
        split
        · nofun
        · exact mt postCheck_refused.1 (exec_ne_refused _ _ _)
  · nofun

/-- Such a run always has a next step. -/
theorem BudgetedRun.step_progresses (hs : BudgetedRun s) : ∃ t, step s = .next t := by
  rw [step_nil hs.runs.2]
  cases h : blockStep s with
  | next t => exact ⟨t, rfl⟩
  | fault f => exact absurd h (hs.blockStep_ne_fault f)
  | refused r => exact absurd h (blockStep_ne_refused s r)

/-- An instruction that does not end such a run leaves one with a step less to go. -/
theorem BudgetedRun.executed (hs : BudgetedRun s) (hp : s.pc < s.progLen) (hl : s.preLimit = false) {i : Instr}
    (he : exec i s = .next t) (ht : t.status = .running) :
    BudgetedRun t ∧ t.cfgMaxSteps.toNat - t.steps.toNat < s.cfgMaxSteps.toNat - s.steps.toNat := by
  have hleft := hs.inv.stepLeft hl
  have hcfg := (exec_next he).sameConfig
  have hprog := (exec_next he).sameProgram
  obtain ⟨hsteps, -⟩ := everyInstructionThatDoesNotRaiseAdvances i s t hs.runs.1 he ht
  refine ⟨⟨hs.inv.exec hs.runs.1 hp hleft he, ⟨ht, (exec_next he).bus.trans hs.runs.2⟩, ?phase, ?budget, ?written,
    ?outCap⟩, ?less⟩
  case phase => rw [hcfg.params, hs.phase]
  case budget => rw [State.budgetEn, hcfg.flags]; exact hs.budget
  case written =>
    intro k hk
    rw [State.progAt, hprog.prog]
    exact hs.written k (hprog.progLen ▸ hk)
  case outCap =>
    intro c hc
    rw [hcfg.maxSteps]
    exact hs.outCap c (hcfg.params ▸ hc)
  case less =>
    have hlt := hleft hs.phase hs.budget
    rw [hcfg.maxSteps, hsteps]
    bv_omega

/-- A step of such a run ends it, or leaves one with a step less to go. -/
theorem BudgetedRun.blockMoved (hs : BudgetedRun s) (h : BlockMoved s t) : t.status ∈ endCodes ∨
    BudgetedRun t ∧ t.cfgMaxSteps.toNat - t.steps.toNat < s.cfgMaxSteps.toNat - s.steps.toNat := by
  cases h with
  | waited hr => exact absurd hs.runs.1 hr
  | finished => exact .inl List.mem_cons_self
  | preLimit => exact .inl (RunError.status_mem_endCodes .stepLimitExceeded)
  | postLimit => exact .inl (RunError.status_mem_endCodes .stepLimitExceeded)
  | executed w _ _ hp hl _ he =>
    rcases (exec_next he).status_eq_or_raised with hst | ⟨e, hst⟩
    · exact .inr (hs.executed hp hl he (hst.trans hs.runs.1))
    · exact .inl (hst ▸ e.status_mem_endCodes)

/-- Such a run ends, by induction on the steps the budget leaves. -/
theorem BudgetedRun.ends (hs : BudgetedRun s) :
    ∃ k t, k ≤ s.cfgMaxSteps.toNat - s.steps.toNat + 1 ∧ Host.Core.run Sys2Proof.core k s = .next t ∧
      t.status ∈ endCodes := by
  induction hn : s.cfgMaxSteps.toNat - s.steps.toNat using Nat.strong_induction_on generalizing s with
  | h n ih =>
    obtain ⟨t, hstep⟩ := hs.step_progresses
    rcases hs.blockMoved (blockStep_next (step_nil hs.runs.2 ▸ hstep)) with hend | ⟨ht, hless⟩
    · exact ⟨1, t, by omega, run_next hstep, hend⟩
    · obtain ⟨k, t', hk, hrun, hend⟩ := ih _ (hn ▸ hless) ht rfl
      exact ⟨k + 1, t', by omega, (run_next hstep).trans hrun, hend⟩

/-- Settles O29: the statement's premises are those of `BudgetedRun`. -/
theorem runEndsWithinItsBudget : Obligations.RunEndsWithinItsBudget := fun _ hinv hruns hphase hbudget hwritten hcap =>
  BudgetedRun.ends ⟨hinv, hruns, hphase, hbudget, hwritten, hcap⟩

end Sys2Proof.Machine
end

section
/-! PROOF. The cell arithmetic unit (41_cell_arithmetic.md): what INC and DEC do to a byte (R120, R121, R123), and what they
and IN leave of the state (R120, R121, 43_io.md R144). -/

namespace Sys2Proof.Machine

/-! ## The bytes (R122, R123) -/

theorem cellInc_toNat (v : Byte) : (cellInc v).toNat = (v.toNat + 1) % 256 := BitVec.toNat_add v 1

theorem cellDec_toNat (v : Byte) : (cellDec v).toNat = (v.toNat + 255) % 256 :=
  (BitVec.toNat_sub v 1).trans (congrArg (· % 256) (Nat.add_comm 255 v.toNat))

theorem cellInc_eq_ofNat (v : Byte) : cellInc v = BitVec.ofNat 8 ((v.toNat + 1) % 256) := by
  rw [← cellInc_toNat, BitVec.ofNat_toNat, BitVec.setWidth_eq]

theorem cellDec_eq_ofNat (v : Byte) : cellDec v = BitVec.ofNat 8 ((v.toNat + 255) % 256) := by
  rw [← cellDec_toNat, BitVec.ofNat_toNat, BitVec.setWidth_eq]

theorem iterate_cellInc_toNat (v : Byte) (k : Nat) : (cellInc^[k] v).toNat = (v.toNat + k) % 256 := by
  induction k with
  | zero => exact (Nat.mod_eq_of_lt v.isLt).symm
  | succ k ih => rw [Function.iterate_succ_apply', cellInc_toNat, ih]; omega

theorem iterate_cellDec_toNat (v : Byte) (k : Nat) : ((cellDec^[k] v).toNat : Int) = ((v.toNat : Int) - k) % 256 := by
  induction k with
  | zero =>
    have := v.isLt
    rw [Function.iterate_zero_apply]
    omega
  | succ k ih => rw [Function.iterate_succ_apply', cellDec_toNat]; omega

theorem iterate_cellInc_256 (v : Byte) : cellInc^[256] v = v :=
  BitVec.eq_of_toNat_eq (by rw [iterate_cellInc_toNat, Nat.add_mod_right, Nat.mod_eq_of_lt v.isLt])

/-- Settles O18: the two `k`-fold laws are inductions over `k`, and 256 increments are the first one at `k = 256`. -/
theorem cellArithmeticIsCyclic : Obligations.CellArithmeticIsCyclic := fun v =>
  ⟨BitVec.sub_add_cancel v 1, BitVec.add_sub_cancel v 1, iterate_cellInc_toNat v, iterate_cellDec_toNat v,
    iterate_cellInc_256 v, rfl, rfl⟩

/-! ## The state -/

variable {s : State}

theorem cellAt_setCell (s : State) (v : Byte) (a : Nat) :
    (s.setCell v).cellAt a = if a = s.cellAddress then v else s.cellAt a := cellAt_writeCell s s.cellAddress a v

/-- An instruction that puts `f` of the current cell back into it, in a run with PTR on the tape. -/
theorem exec_store_ready {i : Instr} {f : Byte → Byte}
    (hi : exec i s = withCell s fun v => .next (s.setCell (f v)).advance) (h : s.cellReady) :
    ∃ t : State, exec i s = .next t ∧ t = { s with tape := t.tape, pc := s.pc + 1, steps := s.steps + 1 } ∧
      ∀ a, t.cellAt a = if a = s.ptr.toNat then f (s.cellAt s.ptr.toNat) else s.cellAt a :=
  ⟨(s.setCell (f s.cell)).advance, by rw [hi, withCell_ready h], rfl, cellAt_setCell s (f s.cell)⟩

/-- Settles O4: the stored byte is `cellInc` of the old one. -/
theorem incAddsOneToTheCurrentCell : Obligations.IncAddsOneToTheCurrentCell := by
  refine ⟨rfl, fun s h => ?_⟩
  rw [← cellInc_eq_ofNat]
  exact exec_store_ready (exec_inc s) h

/-- Settles O5: the stored byte is `cellDec` of the old one. -/
theorem decSubtractsOneFromTheCurrentCell : Obligations.DecSubtractsOneFromTheCurrentCell := by
  refine ⟨rfl, fun s h => ?_⟩
  rw [← cellDec_eq_ofNat]
  exact exec_store_ready (exec_dec s) h

/-- Settles O14, by the cases of `Executed`: only `stored` and `popped` belong to INC, DEC and IN. -/
theorem storingInstructionsWriteOneCell : Obligations.StoringInstructionsWriteOneCell := by
  intro i s t hi h
  cases exec_next h with
  | stored v => exact ⟨fun a ha => (cellAt_setCell s v a).trans (if_neg ha), fun _ => rfl, rfl⟩
  | popped hin =>
    exact ⟨fun a ha => (cellAt_setCell s.popInput s.inFront a).trans (if_neg ha), fun hne => absurd hin hne, rfl⟩
  | moved _ hi' | passed hi' | jumped _ hi' | raised _ _ _ hi' => rcases hi with rfl | rfl | rfl <;> simp at hi'
  | appended hi' => rcases hi with rfl | rfl | rfl <;> cases hi'

end Sys2Proof.Machine
end

section
/-! PROOF. The circular pointer (42_pointer.md): what LEFT and RIGHT do to PTR (R130, R131, R132), and the frame of every
instruction that stores nothing (R130, 43_io.md R142, 44_bracket_jump.md R150, 40_dispatch.md R107). -/

namespace Sys2Proof.Machine

/-! ## The ring (R130, R131, R132) -/

section

variable {n p : Word}

theorem ptrLeft_toNat (hp : p < n) : (ptrLeft n p).toNat = (p.toNat + n.toNat - 1) % n.toNat := by
  by_cases h0 : p = 0
  · rw [ptrLeft, if_pos h0, Nat.mod_eq_of_lt (by bv_omega)]
    bv_omega
  · rw [ptrLeft, if_neg h0, show p.toNat + n.toNat - 1 = (p.toNat - 1) + n.toNat by bv_omega, Nat.add_mod_right,
      Nat.mod_eq_of_lt (by bv_omega)]
    bv_omega

theorem ptrRight_toNat (hp : p < n) : (ptrRight n p).toNat = (p.toNat + 1) % n.toNat := by
  by_cases hN : p = n - 1
  · rw [ptrRight, if_pos hN, show p.toNat + 1 = n.toNat by bv_omega, Nat.mod_self]
    rfl
  · rw [ptrRight, if_neg hN, Nat.mod_eq_of_lt (by bv_omega)]
    bv_omega

/-- With the result of the subtraction taken in [0, N), as R132 reads it. -/
theorem ptrLeft_toNat_int (hp : p < n) : ((ptrLeft n p).toNat : Int) = ((p.toNat : Int) - 1) % n.toNat := by
  rw [ptrLeft_toNat hp, Int.natCast_emod, show ((p.toNat + n.toNat - 1 : Nat) : Int) = p.toNat - 1 + n.toNat by bv_omega,
    Int.add_emod_right]

theorem ptrLeft_ptrRight (hp : p < n) : ptrLeft n (ptrRight n p) = p := by
  by_cases hN : p = n - 1
  · rw [ptrRight, if_pos hN, ptrLeft, if_pos rfl, hN]
  · rw [ptrRight, if_neg hN, ptrLeft, if_neg (by bv_omega), BitVec.add_sub_cancel]

theorem ptrRight_ptrLeft (hp : p < n) : ptrRight n (ptrLeft n p) = p := by
  by_cases h0 : p = 0
  · rw [ptrLeft, if_pos h0, ptrRight, if_pos rfl, h0]
  · rw [ptrLeft, if_neg h0, ptrRight, if_neg (by bv_omega), BitVec.sub_add_cancel]

theorem iterate_ptrLeft_lt (hp : p < n) (k : Nat) : (ptrLeft n)^[k] p < n :=
  Function.Iterate.rec (· < n) hp (fun _ => ptrLeft_lt) k

theorem iterate_ptrRight_lt (hp : p < n) (k : Nat) : (ptrRight n)^[k] p < n :=
  Function.Iterate.rec (· < n) hp (fun _ => ptrRight_lt) k

theorem iterate_ptrRight_toNat (hp : p < n) (k : Nat) : ((ptrRight n)^[k] p).toNat = (p.toNat + k) % n.toNat := by
  induction k with
  | zero => exact (Nat.mod_eq_of_lt hp).symm
  | succ k ih =>
    rw [Function.iterate_succ_apply', ptrRight_toNat (iterate_ptrRight_lt hp k), ih, Nat.mod_add_mod, Nat.add_assoc]

theorem iterate_ptrLeft_toNat (hp : p < n) (k : Nat) :
    (((ptrLeft n)^[k] p).toNat : Int) = ((p.toNat : Int) - k) % n.toNat := by
  induction k with
  | zero => exact (Int.emod_eq_of_lt (by omega) (Int.ofNat_lt.2 hp)).symm
  | succ k ih =>
    rw [Function.iterate_succ_apply', ptrLeft_toNat_int (iterate_ptrLeft_lt hp k), ih, Int.emod_sub_emod, Int.sub_sub,
      Int.natCast_succ]

theorem iterate_ptrRight_tapeLen (hp : p < n) : (ptrRight n)^[n.toNat] p = p :=
  BitVec.eq_of_toNat_eq (by rw [iterate_ptrRight_toNat hp, Nat.add_mod_right, Nat.mod_eq_of_lt hp])

theorem iterate_ptrLeft_tapeLen (hp : p < n) : (ptrLeft n)^[n.toNat] p = p := by
  have h := iterate_ptrLeft_toNat hp n.toNat
  rw [Int.sub_emod_right, Int.emod_eq_of_lt (by omega) (Int.ofNat_lt.2 hp)] at h
  exact BitVec.eq_of_toNat_eq (Int.ofNat_inj.1 h)

theorem ptrLeft_zero_toNat (hp : p < n) : (ptrLeft n 0).toNat = n.toNat - 1 := by
  rw [ptrLeft, if_pos rfl]
  bv_omega

theorem ptrRight_last (n : Word) : ptrRight n (n - 1) = 0 := if_pos rfl

end

/-- Settles O19: the two `k`-fold laws are inductions over `k`, and N moves in one direction are those laws at `k = N`. -/
theorem pointerMovesAreCyclic : Obligations.PointerMovesAreCyclic := fun n _ hp =>
  ⟨ptrLeft_ptrRight hp, ptrRight_ptrLeft hp, iterate_ptrRight_toNat hp, iterate_ptrLeft_toNat hp,
    iterate_ptrRight_tapeLen hp, iterate_ptrLeft_tapeLen hp,
    fun k => ⟨iterate_ptrRight_lt hp k, iterate_ptrLeft_lt hp k⟩, ptrLeft_zero_toNat hp,
    congrArg BitVec.toNat (ptrRight_last n)⟩

/-! ## The state -/

/-- Settles O6: PTR goes through `ptrLeft`, whose modular form is `ptrLeft_toNat`. -/
theorem leftMovesThePointerDownTheRing : Obligations.LeftMovesThePointerDownTheRing :=
  ⟨rfl, fun s => ⟨_, exec_left s, rfl, rfl, ptrLeft_toNat⟩⟩

/-- Settles O7: PTR goes through `ptrRight`, whose modular form is `ptrRight_toNat`. -/
theorem rightMovesThePointerUpTheRing : Obligations.RightMovesThePointerUpTheRing :=
  ⟨rfl, fun s => ⟨_, exec_right s, rfl, rfl, ptrRight_toNat⟩⟩

/-- Settles O15, by the cases of `Executed`: `stored` and `popped` belong to INC, DEC and IN, and `raised` is the one case
that ends the run. -/
theorem otherInstructionsWriteNoCell : Obligations.OtherInstructionsWriteNoCell := by
  intro i s t _ hinc hdec hin h
  cases exec_next h with
  | stored _ hi => exact (hi.elim hinc hdec).elim
  | popped hi => exact absurd hi hin
  | moved p hi =>
    exact ⟨fun _ => rfl, fun hl hr => (hi.elim hl hr).elim, fun _ _ => rfl, fun _ _ => rfl, fun _ => rfl, rfl⟩
  | appended hi =>
    exact ⟨fun _ => rfl, fun _ _ => rfl, fun ho => absurd hi ho, fun _ _ => rfl, fun _ => rfl, rfl⟩
  | passed => exact ⟨fun _ => rfl, fun _ _ => rfl, fun _ _ => rfl, fun _ _ => rfl, fun _ => rfl, rfl⟩
  | jumped j hi =>
    exact ⟨fun _ => rfl, fun _ _ => rfl, fun _ _ => rfl,
      fun hjz hjnz => (hi.elim (fun hz => hjz hz.1) fun hz => hjnz hz.1).elim, fun _ => rfl, rfl⟩
  | raised r e _ hi =>
    have hrun : ((s.setScan r).raise e).status ≠ .running := (raise_status _ e).trans_ne e.status_ne_running
    have he : e ≠ .stepLimitExceeded := by rcases hi with ⟨-, -, -, rfl⟩ | ⟨-, -, -, rfl⟩ <;> nofun
    exact ⟨cellAt_congr (raise_tape _ e) (raise_tapeDraw _ e), fun _ _ => raise_ptr _ e, fun _ hr => absurd hr hrun,
      fun hjz hjnz => (hi.elim (fun hz => hjz hz.1) fun hz => hjnz hz.1).elim, fun hr => absurd hr hrun,
      by rw [raise_bracket _ he]; rfl⟩

end Sys2Proof.Machine
end

section
/-! PROOF. Input and output (43_io.md): what OUT and IN do (R142, R144, R145, R146), that a step transfers at most one
byte and nothing refills the input queue (R140, R148), and where a step of a reachable machine stops (R146, 10_state.md
R25). -/

namespace Sys2Proof.Machine

variable {s t : State}

/-! ## OUT and IN (R142, R144, R146) -/

theorem outputFull_iff (s : State) : s.outputFull = true ↔ s.params.outCap = some s.outbuf.length := beq_iff_eq

/-- Settles O8: with the current cell there, OUT only tests for room. -/
theorem outAppendsTheCurrentCellOrIsStuck : Obligations.OutAppendsTheCurrentCellOrIsStuck := by
  refine ⟨rfl, fun s h => ⟨fun hroom => ?room, fun hfull => ?full⟩⟩
  case room => rw [exec_output, withCell_ready h, if_neg (mt (outputFull_iff s).1 hroom)]; rfl
  case full => rw [exec_output, withCell_ready h, if_pos ((outputFull_iff s).2 hfull)]

/-- Settles O9: the front of INQ, or 0x00 when there is none, is stored in the current cell, and its tail remains. -/
theorem inPopsTheQueueIntoTheCurrentCell : Obligations.InPopsTheQueueIntoTheCurrentCell := by
  refine ⟨rfl, fun s h => ⟨(s.popInput.setCell s.inFront).advance, ?next, ?frame, fun a => ?cells⟩⟩
  case next => rw [exec_input, withCell_ready h]
  case frame => rw [List.drop_one]; rfl
  case cells =>
    refine (cellAt_setCell s.popInput s.inFront a).trans ?_
    rw [State.inFront]
    cases s.inq with
    | nil => rfl
    | cons b rest => rfl

/-! ## The input queue (R148) -/

/-- An instruction takes a byte from the front of the queue or leaves it alone. -/
theorem Executed.inq {i : Instr} (h : Executed i s t) : t.inq = s.inq ∨ t.inq = s.inq.tail := by
  cases h with
  | stored | moved | appended | passed | jumped => exact .inl rfl
  | popped => exact .inr rfl
  | raised r e => exact .inl (raise_inq _ e)

theorem BlockMoved.inq (h : BlockMoved s t) : t.inq = s.inq ∨ t.inq = s.inq.tail := by
  cases h with
  | waited | finished => exact .inl rfl
  | preLimit => exact .inl (raise_inq s _)
  | executed _ _ _ _ _ _ he => exact (exec_next he).inq
  | postLimit _ u _ _ _ _ he => rw [raise_inq u]; exact (exec_next he).inq

/-- From construction on the host changes the queue by a reset alone (R147). -/
theorem HostWrote.inq (h : HostWrote s t) (hs : s.status ≠ .config) (ht : t.status ≠ .config) : t.inq = s.inq := by
  cases h with
  | nothing | started | progLen | progAddr | outAddr => rfl
  | progData => rw [writeProgData_eq]
  | reset => exact absurd rfl ht
  | tapeLen _ hc | flags _ hc | maxSteps _ hc | pushed _ hc | overflow hc | committed hc => exact absurd hc hs

/-- Settles O36: the four kinds of step, of which only a move of the block takes a byte. -/
theorem inputQueueIsNeverRefilled : Obligations.InputQueueIsNeverRefilled := by
  intro s t hc h ht
  have hs : s.status ≠ .config := fun hs => by simp [hs, Status.constructed] at hc
  obtain ⟨rest, -, hb | hw | ⟨v, rfl⟩ | rfl⟩ := step_next h
  · exact hb.inq
  · exact .inl (hw.inq hs ht)
  · exact .inl rfl
  · exact absurd rfl ht

/-! ## One transfer in a step (R140) -/

/-- From `s` to `t` no byte is transferred, or one by an IN or an OUT at PC. -/
def AtMostOneTransfer (s t : State) : Prop :=
  (t.inq = s.inq ∧ t.outbuf = s.outbuf) ∨
  (s.instrAt s.pc.toNat = some .input ∧ t.inq = s.inq.tail ∧ t.outbuf = s.outbuf) ∨
  (s.instrAt s.pc.toNat = some .output ∧ t.inq = s.inq ∧ t.outbuf = s.outbuf ++ [s.cellAt s.ptr.toNat])

/-- A raise discards the output, but it also ends the run. -/
theorem Executed.atMostOneTransfer {i : Instr} (h : Executed i s t) (hi : s.instrAt s.pc.toNat = some i)
    (ht : t.status = .running) : AtMostOneTransfer s t := by
  cases h with
  | stored | moved | passed | jumped => exact .inl ⟨rfl, rfl⟩
  | popped hin => exact .inr (.inl ⟨hin ▸ hi, rfl, rfl⟩)
  | appended hout => exact .inr (.inr ⟨hout ▸ hi, rfl, rfl⟩)
  | raised r e => exact absurd ((raise_status _ e).symm.trans ht) e.status_ne_running

theorem BlockMoved.atMostOneTransfer (h : BlockMoved s t) (ht : t.status = .running) : AtMostOneTransfer s t := by
  cases h with
  | waited => exact .inl ⟨rfl, rfl⟩
  | executed w _ _ _ _ hw he => exact (exec_next he).atMostOneTransfer (congrArg (·.map decode) hw) ht
  | finished | preLimit | postLimit => cases ht

/-- Settles O37: the host transfers nothing during a run, and the block only in an IN or an OUT. -/
theorem atMostOneTransferPerStep : Obligations.AtMostOneTransferPerStep := by
  intro s t hr h ht
  obtain ⟨rest, -, hb | hw | ⟨v, rfl⟩ | rfl⟩ := step_next h
  · exact hb.atMostOneTransfer ht
  · obtain ⟨v, rfl⟩ := hw.running hr
    exact .inl ⟨rfl, rfl⟩
  · exact .inl ⟨rfl, rfl⟩
  · cases ht

/-! ## Where a step of a reachable machine stops (R146, 10_state.md R25) -/

/-- A step is one of the block or always has a next state. -/
theorem step_block_or_next (s : State) :
    (∃ rest, step s = blockStep { s with bus := rest }) ∨ ∃ t, step s = .next t := by
  cases hb : s.bus with
  | nil => exact .inl ⟨[], by rw [step_nil hb, ← hb]⟩
  | cons a rest =>
    cases a with
    | tick => exact .inl ⟨rest, step_tick hb⟩
    | write => exact .inr ⟨_, step_write hb⟩
    | read => exact .inr ⟨_, step_read hb⟩
    | hardReset => exact .inr ⟨_, step_hardReset hb⟩

theorem step_ne_refused (s : State) (r : Refusal) : step s ≠ .refused r := by
  rcases step_block_or_next s with ⟨rest, h⟩ | ⟨t, h⟩
  · rw [h]; exact blockStep_ne_refused _ r
  · rw [h]; nofun

/-- Everything that can stop the block under the invariant: a full buffer with a step left, or an unwritten word of the
program. -/
def StoppedReachably (s : State) (f : Fault) : Prop :=
  (f = .outputHold ∧ s.stepLeft ∧ s.params.outCap = some s.outbuf.length) ∨
  ∃ i < s.progLen.toNat, f = .unwrittenWord i ∧ s.progAt i = none

/-- The invariant puts the current cell on a constructed tape. -/
theorem Invariant.blockStep_fault (hs : Invariant s) {f : Fault} (h : blockStep s = .fault f) :
    StoppedReachably s f := by
  obtain ⟨hr, hp, hl, ⟨rfl, hw⟩ | ⟨w, -, he⟩⟩ := Machine.blockStep_fault h
  · exact .inr ⟨_, hp, rfl, hw⟩
  have hc := constructed_of_running hr
  cases exec_fault he with
  | held _ hf => exact .inl ⟨rfl, hs.stepLeft hl, hf⟩
  | unwrittenAhead k _ _ _ hk hw => exact .inr ⟨k, hk, rfl, hw⟩
  | unwrittenBehind k _ _ hk hw => exact .inr ⟨k, hk.trans hp, rfl, hw⟩
  | offTape _ _ hptr =>
    obtain ⟨-, -, hlt, -⟩ := hs.engine hc
    bv_omega
  | unconstructed _ hn => exact Bool.noConfusion (hc.symm.trans hn)

theorem Invariant.step_fault (hs : Invariant s) {f : Fault} (h : step s = .fault f) : StoppedReachably s f := by
  rcases step_block_or_next s with ⟨rest, h'⟩ | ⟨t, h'⟩
  · exact (hs.setHost rest s.readData).blockStep_fault (h'.symm.trans h)
  · cases h'.symm.trans h

/-- Settles O30: a full buffer holds MAX_STEPS bytes or more, each of which cost a step, so that no step is left. -/
theorem outputHoldIsUnreachableWithTheRequiredCapacity :
    Obligations.OutputHoldIsUnreachableWithTheRequiredCapacity := by
  intro s hs hphase hbudget hcap h
  obtain ⟨-, hleft, hfull⟩ | ⟨i, -, hf, -⟩ := hs.step_fault h
  · have hmax : s.cfgMaxSteps.toNat ≤ s.outbuf.length := hcap _ hfull
    have hout : s.outbuf.length ≤ s.steps.toNat := hs.output hphase hbudget
    have hlt : s.steps < s.cfgMaxSteps := hleft hphase hbudget
    bv_omega
  · cases hf

/-- Settles O31, by `Invariant.step_fault`, whose two cases the premises on the program and the output exclude. -/
theorem reachableStepsStopOnlyForTheTwoNamedReasons : Obligations.ReachableStepsStopOnlyForTheTwoNamedReasons := by
  intro s hs
  refine ⟨fun f h => ?faults, step_ne_refused s, fun hwritten hcap => ?progress⟩
  case faults =>
    obtain ⟨hf, -⟩ | ⟨i, -, hf, hw⟩ := hs.step_fault h
    · exact .inl hf
    · exact .inr ⟨i, hf, hw⟩
  case progress =>
    cases h : step s with
    | next t => exact ⟨t, rfl⟩
    | refused r => exact absurd h (step_ne_refused s r)
    | fault f =>
      obtain ⟨-, -, hfull⟩ | ⟨i, hi, -, hw⟩ := hs.step_fault h
      · cases hcap.symm.trans hfull
      · exact absurd hw (hwritten i hi)

end Sys2Proof.Machine
end

section
/-! PROOF. The bracket jumps (44_bracket_jump.md): what the scans find (R150, R152, R158), that the matching is symmetric
(R159), the FSM clock by clock (R156), and the jump table of stack-based pairing (R158). -/

namespace Sys2Proof.Machine

variable {s : State} {i j n : Nat}

/-! ## Enclosed stretches

Everything a scan or the pairing decides is said with the bracket level: a stretch after `i` stays above if the level never
falls below the one just after `i`, and `i` encloses `j` if it is also back at that level there. -/

/-- The level does not fall below that just after `i` before the words `i + 1` to `n`. -/
def State.staysAbove (s : State) (i n : Nat) : Prop := i < n ∧ ∀ k, i < k → k ≤ n → s.level (i + 1) ≤ s.level k

/-- The brackets strictly between `i` and `j` are balanced and properly nested. -/
def State.encloses (s : State) (i j : Nat) : Prop := s.staysAbove i j ∧ s.level j = s.level (i + 1)

/-- Every word strictly between `i` and `j` is written. -/
def State.writtenBetween (s : State) (i j : Nat) : Prop := ∀ k, i < k → k < j → s.progAt k ≠ none

theorem staysAbove_next (s : State) (i : Nat) : s.staysAbove i (i + 1) :=
  ⟨Nat.lt_succ_self i, fun k hik hki => by rw [show k = i + 1 by omega]⟩

theorem staysAbove_succ_iff (h : i < n) : s.staysAbove i (n + 1) ↔ s.staysAbove i n ∧ s.level (i + 1) ≤ s.level (n + 1) := by
  constructor
  · rintro ⟨-, hk⟩
    exact ⟨⟨h, fun k h1 h2 => hk k h1 (by omega)⟩, hk (n + 1) (by omega) le_rfl⟩
  · rintro ⟨⟨-, hk⟩, hn⟩
    refine ⟨by omega, fun k h1 h2 => ?_⟩
    rcases Nat.lt_or_ge n k with hlt | hle
    · rwa [show k = n + 1 by omega]
    · exact hk k h1 hle

theorem writtenBetween_of_programWritten (hw : s.programWritten) (hj : j ≤ s.progLen.toNat) : s.writtenBetween i j :=
  fun k _ hk => hw k (by omega)

/-- An index with a bracket has been written. -/
theorem progAt_ne_none {k : Nat} {c : Instr} (h : s.instrAt k = some c) : s.progAt k ≠ none := by
  obtain ⟨w, hw, -⟩ := progAt_of_instrAt h
  simp [hw]

/-- A forward scan stops at the `]` that `i` encloses. -/
theorem scanForward_iff_encloses :
    scanForward s.prog (s.progLen.toNat - (i + 1)) i 1 = ⟨.found, j, 0⟩ ↔
      j < s.progLen.toNat ∧ s.instrAt j = some .jnz ∧ s.writtenBetween i j ∧ s.encloses i j := by
  rw [scanForward_found_iff s _ _ _ _ le_rfl]
  have hlev := level_succ s j
  constructor
  · rintro ⟨hlt, hle, hw, hend, hin⟩
    have hj := hin j hlt le_rfl
    have hbounds := weightAt_bounds s j
    exact ⟨by omega, weightAt_eq_neg_one (by omega), fun k h1 h2 => hw k h1 h2.le,
      ⟨hlt, fun k h1 h2 => by have := hin k h1 h2; omega⟩, by omega⟩
  · rintro ⟨hj, hjnz, hw, ⟨hlt, habove⟩, hend⟩
    rw [weightAt_jnz hjnz] at hlev
    refine ⟨hlt, by omega, fun k h1 h2 => ?_, by omega, fun k h1 h2 => by have := habove k h1 h2; omega⟩
    rcases h2.lt_or_eq with h | rfl
    · exact hw k h1 h
    · exact progAt_ne_none hjnz

/-- A backward scan stops at the `[` that encloses `j`. -/
theorem scanBackward_iff_encloses :
    scanBackward s.prog j 1 = ⟨.found, i, 0⟩ ↔ s.instrAt i = some .jz ∧ s.writtenBetween i j ∧ s.encloses i j := by
  rw [scanBackward_found_iff s _ _ _ le_rfl]
  have hlev := level_succ s i
  constructor
  · rintro ⟨hlt, hw, hend, hin⟩
    have hi := hin (i + 1) (by omega) hlt
    have hbounds := weightAt_bounds s i
    exact ⟨weightAt_eq_one (by omega), fun k h1 h2 => hw k h1.le h2,
      ⟨hlt, fun k h1 h2 => by have := hin k h1 h2; omega⟩, by omega⟩
  · rintro ⟨hjz, hw, ⟨hlt, habove⟩, hend⟩
    rw [weightAt_jz hjz] at hlev
    refine ⟨hlt, fun k h1 h2 => ?_, by omega, fun k h1 h2 => by have := habove k h1 h2; omega⟩
    rcases h1.lt_or_eq with h | rfl
    · exact hw k h h2
    · exact progAt_ne_none hjz

/-- Settles O40: each scan finds the other bracket exactly if `i` encloses `j`. -/
theorem bracketMatchingIsSymmetric : Obligations.BracketMatchingIsSymmetric := fun s i j hj hi hjnz =>
  calc scanForward s.prog (s.progLen.toNat - (i + 1)) i 1 = ⟨.found, j, 0⟩
    _ ↔ s.writtenBetween i j ∧ s.encloses i j := by simp [scanForward_iff_encloses, hj, hjnz]
    _ ↔ scanBackward s.prog j 1 = ⟨.found, i, 0⟩ := by simp [scanBackward_iff_encloses, hi]

/-! ## The match as R158 defines it -/

/-- If the level fell below, the `]` where it first does so would match earlier. -/
theorem encloses_of_forwardMatch (h : s.forwardMatch i j) : s.encloses i j := by
  obtain ⟨hlt, -, -, hbal, hleast⟩ := h
  refine ⟨⟨hlt, fun k hik => ?_⟩, (balanced_iff hlt).1 hbal⟩
  induction k, hik using Nat.le_induction with
  | base => exact fun _ => le_rfl
  | succ k hik ih =>
    intro hkj
    have habove := ih (by omega)
    by_contra hbelow
    have hlev := level_succ s k
    have hbounds := weightAt_bounds s k
    exact hleast k hkj hik (weightAt_eq_neg_one (by omega)) ((balanced_iff hik).2 (by omega))

/-- If the level fell below, the last `[` where it rises again would match later. -/
theorem encloses_of_backwardMatch (h : s.backwardMatch j i) : s.encloses i j := by
  obtain ⟨hlt, -, hbal, hgreatest⟩ := h
  rw [balanced_iff hlt] at hbal
  refine ⟨⟨hlt, fun k hik hkj => ?_⟩, hbal⟩
  induction hkj using Nat.decreasingInduction with
  | self => exact hbal.ge
  | of_succ k hkj ih =>
    have habove := ih (by omega)
    by_contra hbelow
    have hlev := level_succ s k
    have hbounds := weightAt_bounds s k
    exact hgreatest k hkj hik (weightAt_eq_one (by omega)) ((balanced_iff hkj).2 (by omega))

/-- A `]` between would take the level below. -/
theorem forwardMatch_iff_encloses :
    s.forwardMatch i j ↔ j < s.progLen.toNat ∧ s.instrAt j = some .jnz ∧ s.encloses i j := by
  constructor
  · intro h
    obtain ⟨-, hj, hjnz, -⟩ := id h
    exact ⟨hj, hjnz, encloses_of_forwardMatch h⟩
  · rintro ⟨hj, hjnz, ⟨hlt, habove⟩, hlev⟩
    refine ⟨hlt, hj, hjnz, (balanced_iff hlt).2 hlev, fun k hkj hik hk hbal => ?_⟩
    have hnext := habove (k + 1) (by omega) hkj
    rw [level_succ s k, weightAt_jnz hk, (balanced_iff hik).1 hbal] at hnext
    omega

/-- A `[` between would have to be left from below. -/
theorem backwardMatch_iff_encloses : s.backwardMatch j i ↔ s.instrAt i = some .jz ∧ s.encloses i j := by
  constructor
  · intro h
    obtain ⟨-, hjz, -⟩ := id h
    exact ⟨hjz, encloses_of_backwardMatch h⟩
  · rintro ⟨hjz, ⟨hlt, habove⟩, hlev⟩
    refine ⟨hlt, hjz, (balanced_iff hlt).2 hlev, fun k hkj hik hk hbal => ?_⟩
    have hat := habove k hik hkj.le
    rw [← hlev, (balanced_iff hkj).1 hbal, level_succ, weightAt_jz hk] at hat
    omega

theorem scanForward_iff_forwardMatch (hw : s.programWritten) :
    scanForward s.prog (s.progLen.toNat - (i + 1)) i 1 = ⟨.found, j, 0⟩ ↔ s.forwardMatch i j := by
  rw [scanForward_iff_encloses, forwardMatch_iff_encloses]
  exact and_congr_right fun hj => by simp [writtenBetween_of_programWritten hw hj.le]

theorem scanBackward_iff_backwardMatch (hw : s.programWritten) (hj : j ≤ s.progLen.toNat) :
    scanBackward s.prog j 1 = ⟨.found, i, 0⟩ ↔ s.backwardMatch j i := by
  rw [scanBackward_iff_encloses, backwardMatch_iff_encloses]
  simp [writtenBetween_of_programWritten hw hj]

/-- Settles O41: the scan and the match are both said by `encloses`. -/
theorem scansFindTheNestingMatch : Obligations.ScansFindTheNestingMatch := fun _ _ _ hw =>
  ⟨scanForward_iff_forwardMatch hw, fun hj => scanBackward_iff_backwardMatch hw hj.le⟩

/-! ## JZ and JNZ -/

theorem exec_jz_fallsThrough (h : s.cellReady) (hz : s.cell ≠ 0) : exec .jz s = .next s.advance := by
  rw [exec_jz, withCell_ready h, if_neg (mt (zeroCond_iff _).1 hz)]

theorem exec_jnz_fallsThrough (h : s.cellReady) (hz : s.cell = 0) : exec .jnz s = .next s.advance := by
  rw [exec_jnz, withCell_ready h, if_pos ((zeroCond_iff _).2 hz)]

/-- What a bracket error leaves after its scan: the abort of 60_exceptions.md R174. -/
def AbortedScan (e : RunError) (s t : State) : Prop :=
  t.status = e.status ∧ t.outbuf = [] ∧ t.pc ≤ s.progLen ∧ (t.steps = s.steps ∨ t.steps = s.steps + 1) ∧
    t = { s with status := t.status, outbuf := t.outbuf, pc := t.pc, steps := t.steps, draws := t.draws,
                 scanDir := .idle, scanPos := t.scanPos, depth := t.depth }

theorem abortedScan_raise (s : State) (r : Scan) {e : RunError} (he : e ≠ .stepLimitExceeded) :
    AbortedScan e s ((s.setScan r).raise e) := by
  rw [raise_bracket _ he]
  exact ⟨rfl, rfl, drawnPc_le (s.setScan r), drawnSteps_cases (s.setScan r), rfl⟩

/-- Settles O10: on a written program the scan finds the match or raises. -/
theorem jzFallsThroughOrJumpsOrRaises : Obligations.JzFallsThroughOrJumpsOrRaises := by
  refine ⟨by decide, fun s hready _ hw => ⟨exec_jz_fallsThrough hready, fun hz j hm => ?jumps, fun hz hno => ?raises⟩⟩
  case jumps =>
    rw [exec_jz_scans hready hz, State.forwardScan, (scanForward_iff_forwardMatch hw).2 hm, finishScan_found, jumpedTo]
  case raises =>
    rw [exec_jz_scans hready hz]
    rcases jzScan_cases s with ⟨j, h, -⟩ | ⟨r, -, -, h⟩ | ⟨k, -, hk, hnone, -⟩
    · exact absurd (forwardMatch_of_forwardScan h) (hno j)
    · exact ⟨_, h, abortedScan_raise s r nofun⟩
    · exact absurd hnone (hw k hk)

/-- Settles O11, as O10: the words before PC are below PROG_LEN, too. -/
theorem jnzFallsThroughOrJumpsOrRaises : Obligations.JnzFallsThroughOrJumpsOrRaises := by
  refine ⟨by decide, fun s hready hpc hw => ⟨exec_jnz_fallsThrough hready, fun hz i hm => ?jumps, fun hz hno => ?raises⟩⟩
  case jumps =>
    rw [exec_jnz_scans hready hz, State.backwardScan, (scanBackward_iff_backwardMatch hw hpc.le).2 hm, finishScan_found,
      jumpedTo]
  case raises =>
    rw [exec_jnz_scans hready hz]
    rcases jnzScan_cases s with ⟨i, h, -⟩ | ⟨r, -, -, h⟩ | ⟨k, hk, hnone, -⟩
    · exact absurd (backwardMatch_of_backwardScan h) (hno i)
    · exact ⟨_, h, abortedScan_raise s r nofun⟩
    · exact absurd hnone (hw k (Nat.lt_trans hk hpc))

/-! ## The jump table -/

/-- The `[` at `i` is still open before index `n`. -/
def State.openBefore (s : State) (i n : Nat) : Prop := s.instrAt i = some .jz ∧ s.staysAbove i n

theorem openBefore_succ_iff :
    s.openBefore i (n + 1) ↔ (i = n ∧ s.instrAt n = some .jz) ∨ (s.openBefore i n ∧ s.level (i + 1) ≤ s.level (n + 1)) := by
  constructor
  · rintro ⟨hjz, habove⟩
    rcases (Nat.lt_succ_iff.1 habove.1).lt_or_eq with h | rfl
    · exact .inr ⟨⟨hjz, ((staysAbove_succ_iff h).1 habove).1⟩, ((staysAbove_succ_iff h).1 habove).2⟩
    · exact .inl ⟨rfl, hjz⟩
  · rintro (⟨rfl, hjz⟩ | ⟨⟨hjz, habove⟩, hn⟩)
    · exact ⟨hjz, staysAbove_next s i⟩
    · exact ⟨hjz, (staysAbove_succ_iff habove.1).2 ⟨habove, hn⟩⟩

theorem openBefore_succ_of_ne_jz (h : s.instrAt n ≠ some .jz) :
    s.openBefore i (n + 1) ↔ s.openBefore i n ∧ s.level (i + 1) ≤ s.level (n + 1) := by
  simp [openBefore_succ_iff, h]

theorem openBefore_level_le (h : s.openBefore i n) : s.level (i + 1) ≤ s.level n :=
  have ⟨_, hlt, habove⟩ := h
  habove n hlt le_rfl

/-- `i` and `j` are a pair of matching brackets. -/
def State.paired (s : State) (i j : Nat) : Prop :=
  s.openBefore i j ∧ s.level j = s.level (i + 1) ∧ s.instrAt j = some .jnz

/-- What the stack-based pairing of the first `n` words has found: the open `[`, each one level below the one on top of it,
and the pairs. -/
structure PairsBefore (s : State) (n : Nat) (p : Pairing) : Prop where
  isOpen : ∀ i, i ∈ p.openAt ↔ s.openBefore i n
  levels : ∀ (k : Nat) i, p.openAt[k]? = some i → s.level (i + 1) = s.level n - k
  isPair : ∀ i j, (i, j) ∈ p.pairs ↔ j < n ∧ s.paired i j

/-- The pairs before `n + 1`: one more, if the word at `n` closes a bracket. -/
theorem isPair_succ {p : Pairing} (hp : PairsBefore s n p) :
    j < n + 1 ∧ s.paired i j ↔ (i, j) ∈ p.pairs ∨ (j = n ∧ s.paired i n) := by
  rw [hp.isPair, Nat.lt_succ_iff_lt_or_eq, or_and_right]
  exact or_congr_right (and_congr_right fun h => by rw [h])

theorem isPair_succ_of_not_paired {p : Pairing} (hp : PairsBefore s n p) (h : ¬ s.paired i n) :
    (i, j) ∈ p.pairs ↔ j < n + 1 ∧ s.paired i j := by
  rw [isPair_succ hp]
  simp [h]

theorem PairsBefore.push {p : Pairing} (hp : PairsBefore s n p) (hjz : s.instrAt n = some .jz) :
    PairsBefore s (n + 1) ⟨n :: p.openAt, p.pairs⟩ := by
  have hlev : s.level (n + 1) = s.level n + 1 := by rw [level_succ, weightAt_jz hjz]
  refine ⟨fun i => ?isOpen, fun k i => ?levels, fun i j => ?isPair⟩
  case isOpen =>
    rw [List.mem_cons, openBefore_succ_iff, hp.isOpen]
    refine or_congr (by simp [hjz]) (iff_self_and.2 fun h => ?_)
    have := openBefore_level_le h
    omega
  case levels =>
    cases k with
    | zero => rintro ⟨⟩; simp
    | succ k =>
      intro h
      rw [hp.levels k i h, hlev]
      push_cast
      omega
  case isPair => exact isPair_succ_of_not_paired (p := p) hp (by simp [State.paired, hjz])

/-- A `]` pops the innermost open `[`, the only one whose level is that before the `]`. -/
theorem PairsBefore.pop {o : Nat} {rest : List Nat} {ps : List (Nat × Nat)} (hp : PairsBefore s n ⟨o :: rest, ps⟩)
    (hjnz : s.instrAt n = some .jnz) : PairsBefore s (n + 1) ⟨rest, (o, n) :: ps⟩ := by
  have hlev : s.level (n + 1) = s.level n - 1 := by rw [level_succ, weightAt_jnz hjnz]; rfl
  have htop : s.level (o + 1) = s.level n := by simpa using hp.levels 0 o rfl
  have hrest : ∀ (k : Nat) i, rest[k]? = some i → s.level (i + 1) = s.level (n + 1) - k := fun k i h => by
    rw [hp.levels (k + 1) i h, hlev]
    push_cast
    omega
  have hbelow : ∀ i ∈ rest, s.level (i + 1) ≤ s.level (n + 1) := fun i hi => by
    obtain ⟨k, hk⟩ := List.getElem?_of_mem hi
    have := hrest k i hk
    omega
  refine ⟨fun i => ?isOpen, hrest, fun i j => ?isPair⟩
  case isOpen =>
    rw [openBefore_succ_of_ne_jz (by simp [hjnz]), ← hp.isOpen, List.mem_cons]
    constructor
    · exact fun hi => ⟨.inr hi, hbelow i hi⟩
    · rintro ⟨rfl | hi, hle⟩
      · omega
      · exact hi
  case isPair =>
    have hclosed : s.paired i n ↔ i = o := by
      simp only [State.paired, hjnz, and_true, ← hp.isOpen, List.mem_cons]
      constructor
      · rintro ⟨hio | hi, hl⟩
        · exact hio
        · have := hbelow i hi; omega
      · rintro rfl
        exact ⟨.inl rfl, htop.symm⟩
    rw [isPair_succ hp, hclosed, List.mem_cons, Prod.mk.injEq, or_comm, and_comm (a := j = n)]

/-- A `]` with no open `[` before it stays unmatched. -/
theorem PairsBefore.unmatched {ps : List (Nat × Nat)} (hp : PairsBefore s n ⟨[], ps⟩)
    (hjnz : s.instrAt n = some .jnz) : PairsBefore s (n + 1) ⟨[], ps⟩ := by
  have hnone : ∀ i, ¬ s.openBefore i n := fun i h => List.not_mem_nil ((hp.isOpen i).2 h)
  exact {
    isOpen := fun i => by simp [openBefore_succ_of_ne_jz, hjnz, hnone]
    levels := nofun
    isPair := fun i _ => isPair_succ_of_not_paired hp fun h => hnone i h.1 }

theorem PairsBefore.skip {p : Pairing} (hp : PairsBefore s n p) (hjz : s.instrAt n ≠ some .jz)
    (hjnz : s.instrAt n ≠ some .jnz) : PairsBefore s (n + 1) p := by
  have hlev : s.level (n + 1) = s.level n := by rw [level_succ, weightAt_other hjz hjnz, Int.add_zero]
  exact {
    isOpen := fun i => by
      rw [openBefore_succ_of_ne_jz hjz, hlev, hp.isOpen]
      exact iff_self_and.2 openBefore_level_le
    levels := fun k i h => (hp.levels k i h).trans (by rw [hlev])
    isPair := fun _ _ => isPair_succ_of_not_paired hp fun h => hjnz h.2.2 }

/-- One word, by the branches of `Pairing.next`. -/
theorem PairsBefore.next {p : Pairing} (hp : PairsBefore s n p) : PairsBefore s (n + 1) (p.next n (s.instrAt n)) := by
  obtain ⟨opens, ps⟩ := p
  unfold Pairing.next
  split
  · exact hp.push ‹_›
  · split
    · cases opens with
      | nil => exact hp.unmatched ‹_›
      | cons o rest => exact hp.pop ‹_›
    · exact hp.skip ‹_› ‹_›

theorem pairsBefore_pairing (s : State) (n : Nat) : PairsBefore s n (s.pairing n) := by
  induction n with
  | zero => constructor <;> simp [State.pairing, State.openBefore, State.staysAbove]
  | succ n ih => exact ih.next

/-- The jump table holds the pairs of matching brackets. -/
theorem mem_jumpTable_iff : (i, j) ∈ s.jumpTable ↔
    j < s.progLen.toNat ∧ s.instrAt i = some .jz ∧ s.instrAt j = some .jnz ∧ s.encloses i j := by
  rw [State.jumpTable, (pairsBefore_pairing s _).isPair]
  simp only [State.paired, State.openBefore, State.encloses]
  tauto

/-- Settles O43: the table and both scans are said by `encloses`. -/
theorem stackPairingGivesTheMatchesOfTheScans : Obligations.StackPairingGivesTheMatchesOfTheScans := by
  intro s i j hw
  refine ⟨fun _ hjz => ?forward, fun hj hjnz => ?backward⟩
  case forward =>
    rw [mem_jumpTable_iff, scanForward_iff_encloses]
    exact and_congr_right fun hj => by simp [hjz, writtenBetween_of_programWritten hw hj.le]
  case backward =>
    simp [mem_jumpTable_iff, scanBackward_iff_encloses, hj, hjnz, writtenBetween_of_programWritten hw hj.le]

/-! ## The FSM

Between two clocks of a scan only the FSM's three registers have changed (R156). -/

/-- `s` with the FSM at position `q` and depth `d` of a scan. -/
abbrev State.scanning (s : State) (dir : ScanDir) (q d : Nat) : State :=
  s.withScan dir (BitVec.ofNat 32 q) (BitVec.ofNat 32 d)

@[simp] theorem withScan_scanDir (s : State) (dir : ScanDir) (q d : Word) : (s.withScan dir q d).scanDir = dir := rfl
@[simp] theorem withScan_scanPos (s : State) (dir : ScanDir) (q d : Word) : (s.withScan dir q d).scanPos = q := rfl
@[simp] theorem withScan_progLen (s : State) (dir : ScanDir) (q d : Word) : (s.withScan dir q d).progLen = s.progLen := rfl
@[simp] theorem withScan_progAt (s : State) (dir : ScanDir) (q d : Word) (k : Nat) :
    (s.withScan dir q d).progAt k = s.progAt k := rfl

theorem fsmRun_idle {t : State} (h : t.scanDir = .idle) (k : Nat) : fsmRun k t = .next t := by
  cases k with
  | zero => rfl
  | succ k => simp [fsmRun, h]

theorem fsmRun_next {t u : State} {k : Nat} (hclock : fsmClock t = .next u) (h : t.scanDir ≠ .idle) :
    fsmRun (k + 1) t = fsmRun k u := by
  rw [fsmRun, if_neg h, hclock]

/-! ### Words that hold a position or a depth -/

theorem toNat_ofNat_word {q : Nat} (h : q < 2 ^ 32) : (BitVec.ofNat 32 q).toNat = q := by
  rw [BitVec.toNat_ofNat, Nat.mod_eq_of_lt h]

theorem ofNat_word_eq_zero_iff {q : Nat} (h : q < 2 ^ 32) : BitVec.ofNat 32 q = 0#32 ↔ q = 0 := by
  rw [← BitVec.toNat_inj, toNat_ofNat_word h, BitVec.toNat_ofNat, Nat.zero_mod]

/-! ### One clock, and the clocks after it -/

section Clock

variable {dir : ScanDir} {q p d k : Nat}

/-- A clock that reads a word at `p` and finds depth `n` there goes back to IDLE on the match, and else stands there. -/
theorem fsmFinish_run_read (hr : s.status = .running) {up down : Word}
    (hclock : fsmClock (s.scanning dir q d) = .next (fsmMove (BitVec.ofNat 32 p) up down (s.scanning dir q d)))
    (hdir : dir ≠ .idle) (hdepth : BitVec.ofNat 32 d + up - down = BitVec.ofNat 32 n) (hn : n < 2 ^ 32) :
    fsmFinish (fsmRun (k + 1) (s.scanning dir q d)) =
      if n = 0 then .next (jumpedTo p s) else fsmFinish (fsmRun k (s.scanning dir p n)) := by
  rw [fsmRun_next hclock hdir]
  simp only [fsmMove, State.withScan, hdepth, BitVec.ofNat_eq_ofNat, ofNat_word_eq_zero_iff hn]
  split
  · rw [fsmRun_idle rfl]
    exact if_pos hr
  · rfl

theorem fsmFinish_run_raise {e : RunError}
    (hclock : fsmClock (s.scanning dir q d) = .next ((s.scanning .idle q d).raise e)) (hdir : dir ≠ .idle) :
    fsmFinish (fsmRun (k + 1) (s.scanning dir q d)) = finishScan e ⟨.unmatched, q, d⟩ s := by
  rw [fsmRun_next hclock hdir, fsmRun_idle (raise_scanDir _ e)]
  exact if_neg ((raise_status _ e).trans_ne e.status_ne_running)

theorem fsmFinish_run_fault {t : State} {f : Fault} (hclock : fsmClock t = .fault f) (hdir : t.scanDir ≠ .idle) :
    fsmFinish (fsmRun (k + 1) t) = .fault f := by
  rw [fsmRun, if_neg hdir, hclock]
  rfl

end Clock

/-! ### One word of a scan -/

section Word

variable {q : Nat} {w : Word}

theorem scanForward_unwritten (hw : s.progAt (q + 1) = none) (left d : Nat) :
    scanForward s.prog (left + 1) q d = ⟨.unwritten (q + 1), q, d⟩ := by
  rw [scanForward, show Memory.read progDefault s.prog (q + 1) = none from hw]

theorem scanForward_read (hw : s.progAt (q + 1) = some w) (left d : Nat) :
    scanForward s.prog (left + 1) q d =
      if depthForward w d = 0 then ⟨.found, q + 1, 0⟩ else scanForward s.prog left (q + 1) (depthForward w d) := by
  rw [scanForward, show Memory.read progDefault s.prog (q + 1) = some w from hw]

theorem scanBackward_unwritten (hw : s.progAt q = none) (d : Nat) :
    scanBackward s.prog (q + 1) d = ⟨.unwritten q, q + 1, d⟩ := by
  rw [scanBackward, show Memory.read progDefault s.prog q = none from hw]

theorem scanBackward_read (hw : s.progAt q = some w) (d : Nat) :
    scanBackward s.prog (q + 1) d =
      if depthBackward w d = 0 then ⟨.found, q, 0⟩ else scanBackward s.prog q (depthBackward w d) := by
  rw [scanBackward, show Memory.read progDefault s.prog q = some w from hw]

end Word

/-! ### The FSM's depth register follows the depth of the scan -/

theorem ofNat_depthForward (w : Word) {d : Nat} (hd : 1 ≤ d) :
    BitVec.ofNat 32 d + fsmCount .jz w - fsmCount .jnz w = BitVec.ofNat 32 (depthForward w d) := by
  obtain ⟨d, rfl⟩ := Nat.exists_eq_add_of_le' hd
  unfold depthForward fsmCount
  cases decode w <;> simp [BitVec.ofNat_add]

theorem ofNat_depthBackward (w : Word) {d : Nat} (hd : 1 ≤ d) :
    BitVec.ofNat 32 d + fsmCount .jnz w - fsmCount .jz w = BitVec.ofNat 32 (depthBackward w d) := by
  obtain ⟨d, rfl⟩ := Nat.exists_eq_add_of_le' hd
  unfold depthBackward fsmCount
  cases decode w <;> simp [BitVec.ofNat_add]

/-! ### The clocks of a scan -/

theorem fsmClock_forward_end {q : Nat} (d : Nat) (hq : q + 1 = s.progLen.toNat) :
    fsmClock (s.scanning .fwd q d) = .next ((s.scanning .idle q d).raise .unmatchedForward) := by
  have hpos : (BitVec.ofNat 32 q).toNat = q := toNat_ofNat_word (by omega)
  exact if_pos (hq.symm.trans (congrArg (· + 1) hpos.symm)).le

theorem fsmClock_forward_unwritten {q : Nat} (d : Nat) (hq : q + 1 < s.progLen.toNat) (hw : s.progAt (q + 1) = none) :
    fsmClock (s.scanning .fwd q d) = .fault (.unwrittenWord (q + 1)) := by
  have hpos : (BitVec.ofNat 32 q).toNat = q := toNat_ofNat_word (by omega)
  simp [fsmClock, hpos, hq, hw]

theorem fsmClock_forward_read {q : Nat} {w : Word} (d : Nat) (hq : q + 1 < s.progLen.toNat)
    (hw : s.progAt (q + 1) = some w) :
    fsmClock (s.scanning .fwd q d) =
      .next (fsmMove (BitVec.ofNat 32 (q + 1)) (fsmCount .jz w) (fsmCount .jnz w) (s.scanning .fwd q d)) := by
  have hpos : (BitVec.ofNat 32 q).toNat = q := toNat_ofNat_word (by omega)
  simp [fsmClock, hpos, hq, hw, BitVec.ofNat_add]

theorem fsmClock_backward_end (s : State) (d : Nat) :
    fsmClock (s.scanning .bwd 0 d) = .next ((s.scanning .idle 0 d).raise .unmatchedBackward) := rfl

theorem fsmClock_backward_unwritten {q : Nat} (d : Nat) (hq : q + 1 < 2 ^ 32) (hw : s.progAt q = none) :
    fsmClock (s.scanning .bwd (q + 1) d) = .fault (.unwrittenWord q) := by
  simp [fsmClock, ofNat_word_eq_zero_iff hq, toNat_ofNat_word hq, hw]

theorem fsmClock_backward_read {q : Nat} {w : Word} (d : Nat) (hq : q + 1 < 2 ^ 32) (hw : s.progAt q = some w) :
    fsmClock (s.scanning .bwd (q + 1) d) =
      .next (fsmMove (BitVec.ofNat 32 q) (fsmCount .jnz w) (fsmCount .jz w) (s.scanning .bwd (q + 1) d)) := by
  have hdown : BitVec.ofNat 32 (q + 1) - 1#32 = BitVec.ofNat 32 q := by simp [BitVec.ofNat_add]
  simp [fsmClock, ofNat_word_eq_zero_iff hq, toNat_ofNat_word hq, hw, hdown]

/-- The clocks of a forward scan from position `q` at depth `d`: one for each of the `left` words, and one to raise. -/
theorem fsmFinish_run_forward (hr : s.status = .running) (left q d : Nat) (hd : 1 ≤ d) (hdq : d ≤ q + 1)
    (hq : q + 1 + left = s.progLen.toNat) :
    fsmFinish (fsmRun (left + 1) (s.scanning .fwd q d)) =
      finishScan .unmatchedForward (scanForward s.prog left q d) s := by
  induction left generalizing q d with
  | zero => exact fsmFinish_run_raise (fsmClock_forward_end d hq) (by decide)
  | succ left ih =>
    have hin : q + 1 < s.progLen.toNat := by omega
    cases hw : s.progAt (q + 1) with
    | none =>
      rw [fsmFinish_run_fault (fsmClock_forward_unwritten d hin hw) nofun, scanForward_unwritten hw, finishScan_unwritten]
    | some w =>
      have hdepth := depthForward_eq hw hd
      have hbounds := weightAt_bounds s (q + 1)
      rw [fsmFinish_run_read hr (fsmClock_forward_read d hin hw) (by decide) (ofNat_depthForward w hd) (by omega),
        scanForward_read hw]
      split
      · rfl
      · exact ih (q + 1) _ (by omega) (by omega) (by omega)

/-- The clocks of a backward scan from position `q` at depth `d`: one for each word before `q`, and one to raise. -/
theorem fsmFinish_run_backward (hr : s.status = .running) (q d : Nat) (hd : 1 ≤ d) (hdq : d + q < 2 ^ 32) :
    fsmFinish (fsmRun (q + 1) (s.scanning .bwd q d)) =
      finishScan .unmatchedBackward (scanBackward s.prog q d) s := by
  induction q generalizing d with
  | zero => exact fsmFinish_run_raise (fsmClock_backward_end s d) (by decide)
  | succ q ih =>
    have hq : q + 1 < 2 ^ 32 := by omega
    cases hw : s.progAt q with
    | none =>
      rw [fsmFinish_run_fault (fsmClock_backward_unwritten d hq hw) nofun, scanBackward_unwritten hw,
        finishScan_unwritten]
    | some w =>
      have hdepth := depthBackward_eq hw hd
      have hbounds := weightAt_bounds s q
      rw [fsmFinish_run_read hr (fsmClock_backward_read d hq hw) (by decide) (ofNat_depthBackward w hd) (by omega),
        scanBackward_read hw]
      split
      · rfl
      · exact ih _ (by omega) (by omega)

/-- `fsmStart` loads PC and depth 1. -/
theorem fsmStart_eq (dir : ScanDir) (s : State) : fsmStart dir s = s.scanning dir s.pc.toNat 1 := by
  simp [fsmStart, State.scanning, State.withScan]

/-- Settles O42: both forms test the same cell, and the clocks finish as the scan does. -/
theorem fsmDoesWhatTheScansDo : Obligations.FsmDoesWhatTheScansDo := by
  rintro s ⟨hr, -⟩ hpc
  have hpc : s.pc.toNat < s.progLen.toNat := hpc
  have hlt := s.progLen.isLt
  have hforward := fsmFinish_run_forward hr (s.progLen.toNat - (s.pc.toNat + 1)) s.pc.toNat 1 le_rfl (by omega) (by omega)
  have hbackward := fsmFinish_run_backward hr s.pc.toNat 1 le_rfl (by omega)
  rw [show s.progLen.toNat - (s.pc.toNat + 1) + 1 = s.progLen.toNat - s.pc.toNat by omega] at hforward
  constructor
  · rw [fsmJz, exec_jz, fsmStart_eq, hforward, State.forwardScan]
  · rw [fsmJnz, exec_jnz, fsmStart_eq, hbackward, State.backwardScan]

end Sys2Proof.Machine
end

section
/-! PROOF. The three run errors (60_exceptions.md): which instruction raises what (R170, R171), when the step limit fires
(R172), what an abort leaves (R174), which error wins (R176), and the wait between runs (R184). -/

namespace Sys2Proof.Machine

variable {s t u : State}

/-! ## Between runs (R184) -/

/-- Settles O28: outside RUNNING a step of the block waits. -/
theorem blockKeepsItsStateBetweenRuns : Obligations.BlockKeepsItsStateBetweenRuns := fun s hr =>
  ⟨fun hb => (step_nil hb).trans (blockStep_not_running hr),
    fun rest hb => (step_tick hb).trans (blockStep_not_running (s := { s with bus := rest }) hr)⟩

/-! ## What an instruction raises (R170, R171, R173) -/

/-- A forward scan that ran off the program read every word of it, so no match stands there. -/
theorem not_forwardMatch_of_unmatched (h : s.forwardScan.ending = .unmatched) (j : Nat) :
    ¬ s.forwardMatch s.pc.toNat j := by
  intro hm
  rw [State.forwardScan] at h
  obtain ⟨hj, hjnz, hencl⟩ := forwardMatch_iff_encloses.1 hm
  rcases scanForward_spec s (s.progLen.toNat - (s.pc.toNat + 1)) s.pc.toNat 1 le_rfl with
    ⟨i, hscan, -⟩ | ⟨e, -, -, -, hwritten⟩ | ⟨p, e, hscan, -⟩
  · rw [hscan] at h; cases h
  · rw [scanForward_iff_encloses.2 ⟨hj, hjnz, fun k hik hkj => hwritten k hik (by omega), hencl⟩] at h; cases h
  · rw [hscan] at h; cases h

/-- A backward scan that ran off the program read every word before PC. -/
theorem not_backwardMatch_of_unmatched (h : s.backwardScan.ending = .unmatched) (i : Nat) :
    ¬ s.backwardMatch s.pc.toNat i := by
  intro hm
  rw [State.backwardScan] at h
  obtain ⟨hjz, hencl⟩ := backwardMatch_iff_encloses.1 hm
  rcases scanBackward_spec s s.pc.toNat 1 le_rfl with ⟨j, hscan, -⟩ | ⟨e, -, -, -, hwritten⟩ | ⟨p, e, hscan, -⟩
  · rw [hscan] at h; cases h
  · rw [scanBackward_iff_encloses.2 ⟨hjz, fun k _ hk => hwritten k hk, hencl⟩] at h; cases h
  · rw [hscan] at h; cases h

/-- Settles O26: the one case of `Executed` that changes STATE is the raise of a bracket whose scan ended unmatched. -/
theorem onlyBracketsRaiseBracketErrors : Obligations.OnlyBracketsRaiseBracketErrors := by
  intro i s t hr h
  cases exec_next h with
  | stored | popped | moved | appended | passed | jumped => exact .inl hr
  | raised r e hend hi =>
    rcases hi with ⟨hi, hz, rfl, rfl⟩ | ⟨hi, hz, rfl, rfl⟩
    · exact .inr (.inl ⟨rfl, hi, hz, fun _ => not_forwardMatch_of_unmatched hend⟩)
    · exact .inr (.inr ⟨rfl, hi, hz, not_backwardMatch_of_unmatched hend⟩)

/-- An instruction leaves STATE alone, or a bracket aborts the run. -/
theorem Executed.status_eq_or_aborted {i : Instr} (h : Executed i s t) :
    t.status = s.status ∨ ∃ e, e ≠ .stepLimitExceeded ∧ AbortedScan e s t := by
  cases h with
  | stored | popped | moved | appended | passed | jumped => exact .inl rfl
  | raised r e _ hi =>
    have he : e ≠ .stepLimitExceeded := by rcases hi with ⟨-, -, -, rfl⟩ | ⟨-, -, -, rfl⟩ <;> nofun
    exact .inr ⟨e, he, abortedScan_raise s r he⟩

/-- No instruction of a run raises a step limit (R173). -/
theorem Executed.status_ne_errStepLimit {i : Instr} (h : Executed i s t) (hr : s.status = .running) :
    t.status ≠ .errStepLimit := by
  rcases h.status_eq_or_aborted with hst | ⟨e, he, hst, -⟩
  · rw [hst, hr]; nofun
  · rw [hst]
    cases e with
    | unmatchedForward | unmatchedBackward => nofun
    | stepLimitExceeded => exact absurd rfl he

/-! ## How a step of a run aborts it (R172, R174) -/

/-- A step limit comes from the PRE check, or from the POST check after an instruction that did not raise. -/
theorem BlockMoved.stepLimit (h : BlockMoved s t) (hr : s.status = .running) (ht : t.status = .errStepLimit) :
    (s.preLimit = true ∧ t = s.raise .stepLimitExceeded) ∨
    ∃ w v, s.progAt s.pc.toNat = some w ∧ exec (decode w) s = .next v ∧ v.status = .running ∧
      v.params.phase = .post ∧ v.limitReached = true ∧ t = v.raise .stepLimitExceeded := by
  cases h with
  | waited hn => exact absurd hr hn
  | finished => cases ht
  | preLimit _ _ hl => exact .inl ⟨hl, rfl⟩
  | executed w _ _ _ _ _ he => exact absurd ht ((exec_next he).status_ne_errStepLimit hr)
  | postLimit w v _ _ _ hw he hv hph hl => exact .inr ⟨w, v, hw, he, hv, hph, hl, rfl⟩

/-- A bracket error is the abort of the instruction at PC. -/
theorem BlockMoved.bracketError (h : BlockMoved s t) (hr : s.status = .running)
    (ht : t.status = .errUnmatchedFwd ∨ t.status = .errUnmatchedBwd) : ∃ e, AbortedScan e s t := by
  cases h with
  | waited hn => exact absurd hr hn
  | finished | preLimit | postLimit => rcases ht with ht | ht <;> cases ht
  | executed w _ _ _ _ _ he =>
    rcases (exec_next he).status_eq_or_aborted with hst | ⟨e, -, habort⟩
    · rw [hst, hr] at ht
      rcases ht with ht | ht <;> cases ht
    · exact ⟨e, habort⟩

/-! ## When the step limit fires (R172, R176) -/

/-- The state the block moves from differs from the machine's in the pending host actions alone. -/
theorem eq_setBus_of_blockRunsFrom (h : s.blockRunsFrom u) : ∃ b, u = { s with bus := b } := by
  obtain ⟨-, ⟨-, rfl⟩ | ⟨rest, -, rfl⟩⟩ := h
  · exact ⟨u.bus, rfl⟩
  · exact ⟨rest, rfl⟩

theorem blockStep_preLimit (hr : s.status = .running) (hp : s.pc < s.progLen) (hl : s.preLimit = true) :
    blockStep s = .next (s.raise .stepLimitExceeded) := by
  have hn : ¬ s.progLen ≤ s.pc := by bv_omega
  rw [blockStep, if_pos hr, if_neg hn, if_pos hl]

/-- When the block moves next with the budget used up under PRE, the step limit is all that happens. -/
theorem step_preLimit (h : s.blockRunsFrom u) (hp : s.pc < s.progLen) (hl : s.preLimit = true) :
    step s = .next (u.raise .stepLimitExceeded) := by
  rw [step_of_blockRunsFrom h]
  obtain ⟨b, rfl⟩ := eq_setBus_of_blockRunsFrom h
  exact blockStep_preLimit (s := { s with bus := b }) h.1 hp hl

/-- Under POST nothing is checked before the instruction. -/
theorem preLimit_of_post (h : s.params.phase = .post) : s.preLimit = false :=
  (preLimit_eq_false_iff s).2 fun hl => nomatch h.symm.trans hl.1

/-- Settles O23: each phase by its check, and the converse by the two cases of `BlockMoved.stepLimit`. -/
theorem stepLimitFiresExactlyAtTheBudget : Obligations.StepLimitFiresExactlyAtTheBudget := by
  intro s u h hp
  have hstep := step_of_blockRunsFrom h
  obtain ⟨b, rfl⟩ := eq_setBus_of_blockRunsFrom h
  refine ⟨fun hph hb hs => ?pre, fun w t hph hw he hr hb hs => ?post, fun t ht hst => ?converse⟩
  case pre => rw [step_preLimit h hp ((preLimit_iff s).2 ⟨hph, hb, hs⟩), raise_stepLimit]
  case post =>
    have hcfg := (exec_next he).sameConfig
    have hpht : t.params.phase = .post := by rw [hcfg.params]; exact hph
    rw [step_executes h hp (preLimit_of_post hph) hw, he, postCheck_atLimit ⟨hr, hpht, hb, hs⟩, raise_stepLimit]
  case converse =>
    rcases (blockStep_next (hstep.symm.trans ht)).stepLimit h.1 hst with
      ⟨hl, rfl⟩ | ⟨w, v, -, he, -, -, hl, rfl⟩
    · exact ((preLimit_iff s).1 hl).2
    · have hcfg := (exec_next he).sameConfig
      obtain ⟨hb, hs⟩ := (limitReached_iff v).1 hl
      rw [State.budgetEn, hcfg.flags] at hb
      exact ⟨hb, hs.trans hcfg.maxSteps⟩

/-- Settles O24: the PRE check comes before the bracket, and the POST check passes over an instruction that has raised. -/
theorem stepLimitWinsUnderPreAndBracketErrorUnderPost :
    Obligations.StepLimitWinsUnderPreAndBracketErrorUnderPost := by
  intro s u t w h hp hw he ht hb
  refine ⟨fun hph hs => ?pre, fun hph _ => ?post⟩
  case pre =>
    have hstep := step_preLimit h hp ((preLimit_iff s).2 ⟨hph, hb, hs⟩)
    obtain ⟨b, rfl⟩ := eq_setBus_of_blockRunsFrom h
    exact ⟨_, hstep, rfl, rfl, rfl⟩
  case post =>
    have hr : t.status ≠ .running := by rcases ht with ht | ht <;> (rw [ht]; nofun)
    exact ⟨t, by rw [step_executes h hp (preLimit_of_post hph) hw, he, postCheck_within fun hl => hr hl.1], rfl⟩

/-! ## What an abort leaves (R174) -/

/-- A bracket error writes no tape cell, no PTR, no INQ and no program word. -/
theorem AbortedScan.frame {e : RunError} (h : AbortedScan e s t) :
    t.tape = s.tape ∧ t.tapeDraw = s.tapeDraw ∧ t.ptr = s.ptr ∧ t.inq = s.inq ∧ t.prog = s.prog ∧
      t.progLen = s.progLen := by
  obtain ⟨-, -, -, -, heq⟩ := h
  rw [heq]
  exact ⟨rfl, rfl, rfl, rfl, rfl, rfl⟩

/-- Settles O25: `BlockMoved.stepLimit` has one case for each phase, and a bracket error leaves what `AbortedScan` says. -/
theorem abortDiscardsOutputAndKeepsTheEngine : Obligations.AbortDiscardsOutputAndKeepsTheEngine := by
  intro s u t h ht
  have hmoved := blockStep_next ((step_of_blockRunsFrom h).symm.trans ht)
  obtain ⟨b, rfl⟩ := eq_setBus_of_blockRunsFrom h
  refine ⟨fun hst hph => ?pre, fun hst hph => ?post, fun hst => ?bracket⟩
  case pre =>
    rcases hmoved.stepLimit h.1 hst with ⟨-, rfl⟩ | ⟨w, v, -, he, -, hpost, -⟩
    · exact raise_stepLimit _
    · rw [(exec_next he).sameConfig.params] at hpost
      cases hph.symm.trans hpost
  case post =>
    rcases hmoved.stepLimit h.1 hst with ⟨hl, -⟩ | ⟨w, v, hw, he, hr, -, hl, rfl⟩
    · cases (preLimit_of_post hph).symm.trans hl
    · exact ⟨w, v, hw, he, hr, ((limitReached_iff v).1 hl).2, raise_stepLimit v⟩
  case bracket =>
    obtain ⟨e, habort⟩ := hmoved.bracketError h.1 hst
    obtain ⟨htape, hdraw, hptr, hinq, hprog, hlen⟩ := habort.frame
    obtain ⟨-, hout, hpc, hsteps, -⟩ := habort
    exact ⟨hout, cellAt_congr htape hdraw, htape, hptr, hinq, hprog, hlen, hpc, hsteps⟩

end Sys2Proof.Machine
end

section
/-! PROOF. Reset, construction and the host's sequences (70_reset_and_hazards.md): what a reset leaves (R190), what CFG_COMMIT
does (R191), the boot sequence (R193 steps 2 to 4), a re-run after a success (R195), and host writes during a run (R197). -/

namespace Sys2Proof.Machine

variable {s : State} {bits offset : Nat} {v : Word} {rest : List HostAction}

/-! ## Reset (R190) -/

/-- Settles O45: each value is a field of `State.reset`. -/
theorem resetStateHasTheStatedValues : Obligations.ResetStateHasTheStatedValues :=
  ⟨rfl, rfl, rfl, rfl, rfl, rfl, rfl, rfl, rfl, rfl, rfl, rfl, rfl, rfl⟩

/-- A SOFT_RESET outside a run is a hardware reset (10_state.md R35). -/
theorem step_softReset (hb : s.bus = .write 32 0x00 v :: rest) (hv : v.getLsbD 1 = true) (hr : s.status ≠ .running) :
    step s = .next (State.hardReset { s with bus := rest }) :=
  step_write_eq hb (writeCtrl_softReset hv hr)

/-- Settles O44: both kinds of reset are `hardReset`, which takes these fields from `State.reset` and keeps the bus. -/
theorem resetLeavesTheStatedValues : Obligations.ResetLeavesTheStatedValues := by
  intro s t rest hb h
  have hreset : step s = .next (State.hardReset { s with bus := rest }) := by
    rcases hb with hb | ⟨v, hb, hv, hr⟩
    · exact step_hardReset hb
    · exact step_softReset hb hv hr
  cases hreset.symm.trans h
  obtain ⟨hstatus, hlen, hflags, hmax, hinq, hout, hptr, hpc, hsteps, hplen, hpaddr, hoaddr, hovf, hscan⟩ :=
    resetStateHasTheStatedValues
  exact ⟨hstatus, hlen, hflags, hmax, hinq, hout, hptr, hpc, hsteps, hplen, hpaddr, hoaddr, hovf, hscan, rfl⟩

/-! ## Construction (R191) -/

/-- COMMIT in CONFIG attempts the construction. -/
theorem step_commit (hb : s.bus = .write 32 0x18 v :: rest) (hs : s.status = .config) (hv : v.getLsbD 0 = true) :
    step s = .next (State.construct { s with bus := rest }) :=
  step_write_eq hb ((hostWrite_cfgCommit _ v).trans (if_pos ⟨hs, hv⟩))

/-- Settles O46: the two cases of `construct`, and no effect without COMMIT or outside CONFIG. -/
theorem commitConstructsOrRejects : Obligations.CommitConstructsOrRejects := by
  intro s v rest hb
  refine ⟨fun hs hv hbad => ?rejected, fun hs hv hok => ?accepted, fun hn => ?ignored⟩
  case rejected => rw [step_commit hb hs hv, construct_rejected (s := { s with bus := rest }) hbad]
  case accepted =>
    refine ⟨_, step_commit hb hs hv, ?_⟩
    rw [construct_accepted (s := { s with bus := rest }) hok]
    exact ⟨cellAt_of_tape_nil rfl rfl, rfl⟩
  case ignored =>
    refine step_write_eq hb ((hostWrite_cfgCommit _ v).trans (if_neg ?_))
    rintro ⟨hs, hv⟩
    rcases hn with hn | hn
    · exact hn hs
    · cases hn.symm.trans hv

/-! ## Host writes during a run (R197) -/

theorem select_outAddr (h : HostReg.select bits offset = some .outAddr) : bits = 32 ∧ offset = 0x2C := by
  obtain ⟨hb, hm⟩ := select_eq_some h
  simpa [hb] using hm

/-- During a run the access column permits writes of CTRL and OUT_ADDR alone (10_state.md R34). -/
theorem writable_running (r : HostReg) : r.writable .running = true ↔ r = .ctrl ∨ r = .outAddr := by
  cases r <;> decide

/-- A write of CTRL is permitted but has no effect (10_state.md R35), so that OUT_ADDR alone takes what is written. -/
theorem hostWrite_running (hr : s.status = .running) (hn : ¬ (bits = 32 ∧ offset = 0x2C)) :
    s.hostWrite bits offset v = s := by
  cases hsel : HostReg.select bits offset with
  | none => exact hostWrite_none v hsel
  | some r =>
    rw [hostWrite_some v hsel, hr]
    split
    · rcases (writable_running r).1 ‹_› with rfl | rfl
      · exact writeCtrl_running hr
      · exact absurd (select_outAddr hsel) hn
    · rfl

/-- Settles O48: OUT_ADDR takes the value, and every other write has no effect. -/
theorem hostWritesAreIgnoredDuringARun : Obligations.HostWritesAreIgnoredDuringARun := by
  intro s bits offset v rest hr hb
  by_cases h : bits = 32 ∧ offset = 0x2C
  · obtain ⟨rfl, rfl⟩ := h
    exact step_write_eq hb ((hostWrite_outAddr _ v).trans (if_neg (by rw [hr]; nofun)))
  · rw [if_neg h]
    exact step_write_eq hb (hostWrite_running hr h)

/-! ## The input bytes of the boot sequence (10_state.md R39, R40) -/

/-- INQ and IN_OVF after the bytes have been pushed in order: those that find no room are lost and set IN_OVF. -/
def State.pushAll (s : State) (bytes : List Byte) : State :=
  { s with inq := (s.inq ++ bytes).take s.params.inCap
           inOvf := s.inOvf || decide (s.params.inCap < s.inq.length + bytes.length) }

section

variable (hq : s.inq.length ≤ s.params.inCap)
include hq

theorem pushAll_nil : s.pushAll [] = s := by
  simp [State.pushAll, List.take_of_length_le hq, Nat.not_lt.2 hq]

/-- The first byte is the value of one IN_PUSH. -/
theorem pushAll_cons (b : Byte) (bytes : List Byte) :
    s.pushAll (b :: bytes) = (s.pushInput (b.setWidth 32)).pushAll bytes := by
  by_cases hroom : s.inq.length < s.params.inCap
  · simp [pushInput_room _ hroom, State.pushAll, Nat.add_assoc, Nat.add_comm 1]
  · have hfull : s.inq.length = s.params.inCap := by omega
    simp [pushInput_full _ hroom, State.pushAll, ← hfull]

theorem pushInput_inq_le (w : Word) : (s.pushInput w).inq.length ≤ (s.pushInput w).params.inCap := by
  by_cases hroom : s.inq.length < s.params.inCap
  · simpa [pushInput_room w hroom] using hroom
  · simpa [pushInput_full w hroom] using hq

end

/-- A push leaves the engine, its STATE among it, alone. -/
theorem pushInput_sameEngine (s : State) (w : Word) : SameEngine s (s.pushInput w) :=
  writeReg_sameEngine s (r := .inPush) nofun nofun w

/-- One IN_PUSH in CONFIG. -/
theorem step_inPush (hs : s.status = .config) (w : Word) :
    step { s with bus := .write 32 0x14 w :: rest } = .next { s.pushInput w with bus := rest } := by
  refine step_write_eq rfl ((hostWrite_inPush _ w).trans ((if_pos hs).trans ?_))
  by_cases hroom : s.inq.length < s.params.inCap
  · rw [pushInput_room w hroom, pushInput_room (s := { s with bus := rest }) w hroom]
  · rw [pushInput_full w hroom, pushInput_full (s := { s with bus := rest }) w hroom]

/-- The bytes pushed one by one through the register bank, in CONFIG. -/
theorem run_inPushes (hs : s.status = .config) (hq : s.inq.length ≤ s.params.inCap) (k : Nat) (bytes : List Byte) :
    Host.Core.run Sys2Proof.core (bytes.length + k)
        { s with bus := (bytes.map fun b => .write 32 0x14 (b.setWidth 32)) ++ rest } =
      Host.Core.run Sys2Proof.core k { s.pushAll bytes with bus := rest } := by
  induction bytes generalizing s with
  | nil => rw [pushAll_nil hq, List.length_nil, Nat.zero_add, List.map_nil, List.nil_append]
  | cons b bytes ih =>
    rw [List.length_cons, Nat.add_right_comm, pushAll_cons hq]
    exact (run_next (step_inPush hs _)).trans
      (ih ((pushInput_sameEngine s _).status.trans hs) (pushInput_inq_le hq _))

/-! ## The boot sequence (R193, steps 2 to 4) -/

/-- The state after the host has written the three configuration registers. -/
def State.configured (s : State) (n flags m : Word) : State :=
  { s with cfgTapeLen := n, cfgFlags := flags.setWidth 2, cfgMaxSteps := m }

/-- The three writes of the configuration registers, in CONFIG. -/
theorem run_configure (hs : s.status = .config) (k : Nat) (n flags m : Word)
    (hb : s.bus = .write 32 0x08 n :: .write 32 0x0C flags :: .write 32 0x10 m :: rest) :
    Host.Core.run Sys2Proof.core (k + 3) s =
      Host.Core.run Sys2Proof.core k { s.configured n flags m with bus := rest } := by
  have htapeLen : step s = .next { s with
      cfgTapeLen := n, bus := .write 32 0x0C flags :: .write 32 0x10 m :: rest } := by
    rw [step_write hb, hostWrite_cfgTapeLen, if_pos hs]
  have hflags : step { s with cfgTapeLen := n, bus := .write 32 0x0C flags :: .write 32 0x10 m :: rest } =
      .next { s with cfgTapeLen := n, cfgFlags := flags.setWidth 2, bus := .write 32 0x10 m :: rest } := by
    rw [step_write rfl, hostWrite_cfgFlags, if_pos hs]
  have hmaxSteps : step { s with
      cfgTapeLen := n, cfgFlags := flags.setWidth 2, bus := .write 32 0x10 m :: rest } =
      .next { s.configured n flags m with bus := rest } := by
    rw [step_write rfl, hostWrite_cfgMaxSteps, if_pos hs]
    rfl
  rw [run_next htapeLen, run_next hflags, run_next hmaxSteps]

/-- In CONFIG the boot sequence ends with the construction of what has been configured and pushed. -/
theorem run_bootActions (hs : s.status = .config) (hq : s.inq.length ≤ s.params.inCap) {n flags m : Word}
    {input : List Byte} (hb : s.bus = bootActions n flags m input) :
    Host.Core.run Sys2Proof.core (input.length + 4) s =
      .next (State.construct { (s.configured n flags m).pushAll input with bus := [] }) :=
  calc Host.Core.run Sys2Proof.core (input.length + 4) s
    _ = Host.Core.run Sys2Proof.core (input.length + 1) { s.configured n flags m with
          bus := (input.map fun b => .write 32 0x14 (b.setWidth 32)) ++ [.write 32 0x18 1] } :=
      run_configure hs _ n flags m hb
    _ = Host.Core.run Sys2Proof.core 1 { (s.configured n flags m).pushAll input with bus := [.write 32 0x18 1] } :=
      run_inPushes (s := s.configured n flags m) hs hq 1 input
    _ = .next (State.construct { (s.configured n flags m).pushAll input with bus := [] }) :=
      run_next (step_commit rfl hs (by decide))

/-- Settles O56: the construction succeeds unless the tape length is out of range or the input has set IN_OVF. -/
theorem bootSequenceConstructsTheEngine : Obligations.BootSequenceConstructsTheEngine := by
  intro p n flags m input
  refine ⟨_, run_bootActions rfl (Nat.zero_le _) rfl, fun hn hcap hin => ?constructed, fun hbad => ?rejected⟩
  case constructed =>
    have hok : ¬ (n = 0 ∨ p.tapeCap < n.toNat ∨ p.inCap < input.length) := by
      rintro (rfl | h | h)
      · exact absurd hn (by decide)
      · exact Nat.not_lt.2 hcap h
      · exact Nat.not_lt.2 hin h
    rw [construct_accepted]
    · refine ⟨?_, BitVec.toNat_setWidth 2 flags, cellAt_of_tape_nil rfl rfl⟩
      simp [State.pushAll, State.configured, State.reset, List.take_of_length_le hin, Nat.not_lt.2 hin]
    · simpa [State.pushAll, State.configured, State.reset] using hok
  case rejected =>
    rw [construct_rejected]
    simpa [State.pushAll, State.configured, State.reset] using hbad

/-! ## A re-run after a success (R195) -/

/-- START begins a run in every startable state, if the program fits program memory (10_state.md R35). -/
theorem step_start (hb : s.bus = .write 32 0x00 1 :: rest) (hs : s.status.startable = true)
    (hl : s.progLen.toNat ≤ s.params.progCap) : step s = .next (State.startRun { s with bus := rest }) :=
  step_write_eq hb (writeCtrl_start (s := { s with bus := rest }) (v := 1) (by decide) (by decide) hs hl)

/-- Settles O57: START begins a run whose PC is already past the program, so that the next step ends it. -/
theorem rerunAfterSuccessEndsAtOnce : Obligations.RerunAfterSuccessEndsAtOnce := by
  intro s hs hp hl hb
  have hstart : step s = .next (State.startRun { s with bus := [] }) := step_start hb (by rw [hs]; rfl) hl
  have hfinish : step (State.startRun { s with bus := [] }) = .next (State.startRun { s with bus := [] }).finish :=
    (step_nil rfl).trans (blockStep_finishes rfl hp)
  rw [run_next hstart, run_next hfinish, run_zero, State.finish, ← hs]
  rfl

end Sys2Proof.Machine
end
